-- ==== Sys2Proof/Syntax.lean ====
section
/-! DEFINITION. The commands of CORE, one constructor for each row of spec/opcode_table.json (30_encoding.md R71).
A command is the one byte a host writes to OP; it has no operand field, every operand is implicit (R70). -/

namespace Sys2Proof

/-- A command (00_scope.md R2 calls it the instruction of this hardware). -/
inductive Instr where
  /-- NOP, opcode 0x00 (46_control.md R151). -/
  | nop
  /-- DECODE, opcode 0x01: the whole pipeline, IBUF to packet (45_decode.md R146). -/
  | decode
  /-- SYNC, opcode 0x02: IBUF to FBUF (41_sync.md R115). -/
  | sync
  /-- EXTRACT, opcode 0x03: FBUF to TBUF (42_extract.md R121). -/
  | extract
  /-- MDECODE, opcode 0x04: TBUF to DBUF (43_manchester.md R128). -/
  | mdecode
  /-- PARSE, opcode 0x05: DBUF to the packet-result group (44_parse.md R142). -/
  | parse
  /-- CLEAR, opcode 0x0F: clear status and results (46_control.md R152). -/
  | clear
  deriving DecidableEq, Repr

end Sys2Proof
end

