-- ==== Sys2Proof/Word.lean ====
section
/-! DEFINITION. The words CORE handles: 8-bit bytes, 16-bit registers and block addresses, 24-bit packet addresses
(00_scope.md R11, 20_memory.md R51). Every quantity is unsigned. -/

namespace Sys2Proof

/-- One byte: the unit of the block address space and of every buffer but IBUF. -/
abbrev Byte := BitVec 8

/-- A 16-bit register (a length, PRE_RUN, PCONS, PCMD). -/
abbrev Half := BitVec 16

/-- A 16-bit block address (20_memory.md R51). -/
abbrev Addr := BitVec 16

/-- A 24-bit packet address field (30_encoding.md R86). -/
abbrev PacketAddr := BitVec 24

/-- A bitstream: bit 0 of it, the first received, is the head (00_scope.md R12). -/
abbrev Bits := List Bool

/-- A byte sequence (00_scope.md R12). -/
abbrev Bytes := List Byte

end Sys2Proof
end

