-- ==== Sys2Proof/Decode.lean ====
section
/-! DEFINITION. Decoding and encoding of command bytes (30_encoding.md R70 to R72, 40_command_cycle.md R101). -/

namespace Sys2Proof

/-- Why a byte sequence holds no command. -/
inductive DecodeError where
  /-- There is no byte at all. -/
  | noByte
  /-- The byte is an illegal opcode: 0x06 to 0x0E or 0x10 to 0xFF (30_encoding.md R72; log 16 on the number of them). -/
  | illegalOpcode (opcode : Byte)
  deriving DecidableEq, Repr

/-- `cmd(v)` of 40_command_cycle.md R101: the command of an opcode byte, `none` for ILLEGAL. The rows are those of the opcode
map, 30_encoding.md R71. -/
def commandOf (v : Byte) : Option Instr :=
  match v.toNat with
  | 0x00 => some .nop
  | 0x01 => some .decode
  | 0x02 => some .sync
  | 0x03 => some .extract
  | 0x04 => some .mdecode
  | 0x05 => some .parse
  | 0x0F => some .clear
  | _ => none

/-- Reads one command from the front of a byte sequence and gives back the rest: every command is one byte (30_encoding.md
R70). -/
def decode : Bytes → Except DecodeError (Instr × Bytes)
  | [] => .error .noByte
  | v :: rest =>
    match commandOf v with
    | some i => .ok (i, rest)
    | none => .error (.illegalOpcode v)

/-- The opcode byte of a command: the opcode map, 30_encoding.md R71. -/
def opcode : Instr → Byte
  | .nop => 0x00
  | .decode => 0x01
  | .sync => 0x02
  | .extract => 0x03
  | .mdecode => 0x04
  | .parse => 0x05
  | .clear => 0x0F

/-- The bytes of a command: its opcode (30_encoding.md R70). -/
def encode (i : Instr) : Bytes := [opcode i]

/-- The bytes of a word of the opcode table, its first byte in the low bits; at least one byte, zero above `nbits`. -/
def tableWordBytes (nbits w : Nat) : Bytes :=
  (List.range (max 1 ((nbits + 7) / 8))).map fun k => BitVec.ofNat 8 ((w % 2 ^ nbits) >>> (8 * k))

/-- The instruction the decoder reads from an instruction whose bits are `w`. -/
def decodeTableWord (nbits w : Nat) : Option Instr :=
  match decode (tableWordBytes nbits w) with
  | .ok (i, _) => some i
  | .error _ => none

end Sys2Proof
end

