-- ==== Sys2Proof/Machine/Bits.lean ====
section
/-! DEFINITION. Bit-field, bit-order and byte-order helpers (20_memory.md R55, R56, R62; 30_encoding.md R75, R80). -/

namespace Sys2Proof.Machine

/-- Bits 15:8 of a 16-bit register, its byte at the lower address (20_memory.md R55). -/
def hiByte (h : Half) : Byte := h.extractLsb' 8 8

/-- Bits 7:0 of a 16-bit register, its byte at the higher address (20_memory.md R55). -/
def loByte (h : Half) : Byte := h.extractLsb' 0 8

/-- The register with bits 15:8 replaced and bits 7:0 kept (20_memory.md R56). -/
def withHi (h : Half) (v : Byte) : Half := v ++ loByte h

/-- The register with bits 7:0 replaced and bits 15:8 kept (20_memory.md R56). -/
def withLo (h : Half) (v : Byte) : Half := hiByte h ++ v

/-- The 16-bit value of two bytes, the first the high one (30_encoding.md R87). -/
def half (hi lo : Byte) : Half := hi ++ lo

/-- The 24-bit value of three bytes, the first the most significant (30_encoding.md R86). -/
def packetAddr (b2 b1 b0 : Byte) : PacketAddr := b2 ++ b1 ++ b0

/-- Byte `k` of a 24-bit register, byte 0 the least significant: bits `8k+7 : 8k` (10_state.md R36). -/
def packetAddrByte (a : PacketAddr) (k : Nat) : Byte := a.extractLsb' (8 * k) 8

/-- The number of a bit sequence whose head is bit 0. -/
def bitsValue : Bits → Nat
  | [] => 0
  | b :: rest => b.toNat + 2 * bitsValue rest

/-- `byte(c)` of a framed chunk: `c[1]` is bit 0 and `c[8]` is bit 7; the start bit `c[0]` and the stop bit `c[9]` are dropped,
whatever they are (30_encoding.md R75, R76). -/
def framedByte (c : Bits) : Byte := BitVec.ofNat 8 (bitsValue ((c.drop 1).take 8))

/-- Bit `i` of a bitstream within the byte that holds it: bit `7 - (i mod 8)`, so the first bit is the most significant
(20_memory.md R62). -/
def streamBit (b : Byte) (i : Nat) : Bool := b.getLsbD (7 - i % 8)

/-- The 8 bits of a byte from bit 7 down to bit 0 (10_state.md R47). -/
def byteBits (b : Byte) : Bits := (List.range 8).map (streamBit b)

/-- The bytes that hold a bitstream, first bit most significant, the unused low bits of the last byte 0 (20_memory.md R62,
30_encoding.md R94 LOADBITS). -/
def packBits (bits : Bits) : Bytes :=
  (List.range ((bits.length + 7) / 8)).map fun k =>
    BitVec.ofNat 8 (bitsValue ((List.range 8).map fun j => bits.getD (8 * k + (7 - j)) false))

/-- `index_of(T, v)`: the smallest index of the table that holds `v` (00_scope.md R12). -/
def indexOf (v : Byte) : Bytes → Option Nat
  | [] => none
  | x :: rest => if x = v then some 0 else (indexOf v rest).map (· + 1)

/-- A byte sequence laid from index 0 into `n` bytes, the rest 0. -/
def padTo (n : Nat) (l : Bytes) : Vector Byte n :=
  ⟨(l.take n ++ List.replicate (n - l.length) 0).toArray, by simp; omega⟩

end Sys2Proof.Machine
end

