-- ==== Sys2Proof/Config.lean ====
section
/-! DEFINITION. What an implementation of CORE fixes: the parameters of 00_scope.md R7, with their defaults, and the one free
value of the model, the contents of the buffers after a reset (70_reset_and_hazards.md R175). -/

namespace Sys2Proof

/-- FIELD_ASSEMBLY (00_scope.md R7, 90_conflicts.md C3): how an address or command field is put together. -/
inductive FieldAssembly where
  /-- The successive bytes of the field (30_encoding.md R86, R87). -/
  | successive
  /-- The field's first byte, repeated (30_encoding.md R88). -/
  | repeatFirst
  deriving DecidableEq, Repr

/-- PAYLOAD_SHORTFALL (00_scope.md R7, 90_conflicts.md C4): what a payload shorter than its length byte does. -/
inductive PayloadShortfall where
  /-- PARSE fails with MALFORMED (44_parse.md R139). -/
  | malformed
  /-- The payload is cut short and PARSE succeeds (44_parse.md R139). -/
  | truncate
  deriving DecidableEq, Repr

/-- The implementation parameters of 00_scope.md R7, fixed when a CORE is built. LATENCY, the seventh, is a draw for each command
and lies in the execution order (Machine/State.lean, log 2). -/
structure Params where
  /-- `MT`: entry `v` is the Manchester symbol of nibble `v`. -/
  mt : Vector Byte 16
  /-- `HF`: the header-flags table. -/
  hf : Vector Byte 16
  fieldAssembly : FieldAssembly
  payloadShortfall : PayloadShortfall
  /-- `MAX_BITS`: how many bits IBUF holds. -/
  maxBits : Nat
  deriving DecidableEq, Repr

/-- The default Manchester table (30_encoding.md R81; the spec marks its values as general knowledge, 93 G1). -/
def Config.defaultMt : Vector Byte 16 :=
  #v[0xAA, 0xA9, 0xA6, 0xA5, 0x9A, 0x99, 0x96, 0x95, 0x6A, 0x69, 0x66, 0x65, 0x5A, 0x59, 0x56, 0x55]

/-- The default header-flags table (30_encoding.md R92; the spec marks its values as general knowledge, 93 G2). -/
def Config.defaultHf : Vector Byte 16 :=
  #v[0x0F, 0x0C, 0x0D, 0x0B, 0x27, 0x24, 0x25, 0x23, 0x47, 0x44, 0x45, 0x43, 0x17, 0x14, 0x15, 0x13]

/-- The defaults of 00_scope.md R7. -/
def Config.defaults : Params where
  mt := Config.defaultMt
  hf := Config.defaultHf
  fieldAssembly := .successive
  payloadShortfall := .malformed
  maxBits := 8192

/-- FREE VALUE (log 3). The byte that the buffer location at a block address holds from the `epoch`-th reset until something
writes it: any value, a free draw (70_reset_and_hazards.md R175, 93 U1, 92 D35). Without a body: nothing can be proved of it. -/
opaque Config.bufferDraw (epoch address : Nat) : Byte

end Sys2Proof
end

