-- ==== Sys2Proof/Machine/State.lean ====
section
/-! DEFINITION. The state of CORE: the record of 10_state.md R20, and beside it the model's own fields (the parameters, the
execution order still to come, and what the host has read). INVENTORY.md lists every field with its rule and reset value. -/

namespace Sys2Proof.Machine

/-- The value of STATUS.CODE (60_exceptions.md R154). The values 9 to 15 are never produced and have no constructor (93 U10,
log 12). -/
inductive Code where
  | ok
  | preambleError
  | syncError
  | eopError
  | manchesterError
  | checksumError
  | malformed
  | illegalCmd
  | badLength
  deriving DecidableEq, Repr

/-- A command that can be pending (10_state.md R48). -/
inductive Cmd where
  | decode
  | sync
  | extract
  | mdecode
  | parse
  deriving DecidableEq, Repr

/-- The packet-result group (10_state.md R20, R31 to R42). -/
structure PacketGroup where
  pktValid : Bool
  header : Byte
  flags : Byte
  addr0 : PacketAddr
  addr1 : PacketAddr
  addr2 : PacketAddr
  param0 : Byte
  param1 : Byte
  pcmd : Half
  len : Byte
  plen : Byte
  csum : Byte
  pcons : Half
  payload : Vector Byte 255
  deriving DecidableEq, Repr

/-- The buffers: (block address, byte) pairs, addresses strictly rising. A location that is not listed has not been written
since the last reset (log 5); what it then reads as is State.bufByte of Machine/Ops.lean. -/
abbrev Memory := List Host.Cell

/-- One event of an execution, the total order of 20_memory.md R65: a HOST access, an ENGINE step or a reset. -/
inductive Event where
  /-- `R aaaa -> name`: a host read of one byte (30_encoding.md R93). -/
  | read (a : Addr)
  /-- `W aaaa, dd`: a host write of one byte (30_encoding.md R93). -/
  | write (a : Addr) (v : Byte)
  /-- `WAIT`: the host polls STATUS while BUSY = 1 (30_encoding.md R94). `polls` is how many polls may still see BUSY = 1
  before the ENGINE step is taken: the draw that R105 leaves open (log 8). -/
  | wait (polls : Nat)
  /-- The ENGINE takes its step here, if it has one (10_state.md R17, log 2). -/
  | engine
  /-- The platform or the host asserts reset (70_reset_and_hazards.md R174). -/
  | reset
  deriving DecidableEq, Repr

/-- The state. The fields down to `mem` are the record of 10_state.md R20; the last four are the model's own. -/
structure State where
  /-- CTRL bit 0 (10_state.md R22). -/
  irqEn : Bool
  /-- STATUS bits 3:0 (10_state.md R23). -/
  code : Code
  /-- STATUS bit 4 (10_state.md R24). -/
  done : Bool
  /-- PENDING, `none` for NONE (10_state.md R48). BUSY is a view of it (R25). -/
  pending : Option Cmd
  /-- IN_LEN (10_state.md R26). -/
  inLen : Half
  /-- FLEN (10_state.md R27). -/
  flen : Half
  /-- TLEN (10_state.md R28). -/
  tlen : Half
  /-- DLEN (10_state.md R29). -/
  dlen : Half
  /-- PRE_RUN (10_state.md R30). -/
  preRun : Half
  /-- The packet-result group (10_state.md R20). -/
  pkt : PacketGroup
  /-- IBUF, FBUF, TBUF and DBUF (10_state.md R43 to R46), by block address. -/
  mem : Memory
  /-- MODEL. The parameters this CORE was built with (00_scope.md R7, log 1). No step writes them. -/
  params : Params
  /-- MODEL. How many resets there have been: which draw of buffer contents is in force (log 3). -/
  epoch : Nat
  /-- MODEL. The execution still to come (20_memory.md R65, log 2). -/
  order : List Event
  /-- MODEL. What the host has read so far, newest first: address and byte (log 4). -/
  reads : List (Addr × Byte)
  deriving DecidableEq, Repr

/-- Why the machine stops with a fault. It never does: an error completes with a status code, without a trap
(60_exceptions.md R164), and the machine goes on (R165). So there is no constructor: no one can raise one, which is safe. -/
inductive Fault where
  deriving DecidableEq, Repr

/-- Why the model refuses an instruction. -/
inductive Refusal where
  /-- Raised only by an arm of Machine/Dispatch.lean whose instruction has no meaning yet; no arm is one. Safe: nothing is proved
  of an instruction that is refused. -/
  | notModelled (mnemonic : String)
  deriving DecidableEq, Repr

/-- Every field of the packet-result group at 0 (40_command_cycle.md R98; the reset values of 70_reset_and_hazards.md
R175). -/
def PacketGroup.zero : PacketGroup where
  pktValid := false
  header := 0
  flags := 0
  addr0 := 0
  addr1 := 0
  addr2 := 0
  param0 := 0
  param1 := 0
  pcmd := 0
  len := 0
  plen := 0
  csum := 0
  pcons := 0
  payload := Vector.replicate 255 0

/-- The machine right after reset (70_reset_and_hazards.md R175): every register 0, PENDING = NONE, no buffer location written.
The model's own fields: the default parameters, the first draw of buffer contents, no execution placed, nothing read (log 1
to log 4). -/
def State.reset : State where
  irqEn := false
  code := .ok
  done := false
  pending := none
  inLen := 0
  flen := 0
  tlen := 0
  dlen := 0
  preRun := 0
  pkt := PacketGroup.zero
  mem := []
  params := Config.defaults
  epoch := 0
  order := []
  reads := []

end Sys2Proof.Machine
end

