-- ==== Sys2Proof/Machine/Ops.lean ====
section
/-! DEFINITION. The named operations over the buffers and the registers that all commands share: reading and writing a byte,
the issue of a command with its length check, its completion, its rejection, the clearing of the packet result, and
reset (40_command_cycle.md, 70_reset_and_hazards.md). -/

namespace Sys2Proof.Machine

/-! ## The buffers -/

/-- The byte written last at an address, `none` when nothing has been written there since reset. -/
def Memory.read? : Memory → Nat → Option Byte
  | [], _ => none
  | (b, w) :: rest, a => if a < b then none else if a = b then some w else Memory.read? rest a

/-- Writes one byte, keeping the addresses rising. -/
def Memory.write : Memory → Nat → Byte → Memory
  | [], a, v => [(a, v)]
  | (b, w) :: rest, a, v =>
    if a < b then (a, v) :: (b, w) :: rest
    else if a = b then (a, v) :: rest
    else (b, w) :: Memory.write rest a v

/-- Writes a byte sequence to the addresses from `base` on. -/
def Memory.writeBytes (m : Memory) (base : Nat) : Bytes → Memory
  | [] => m
  | v :: rest => Memory.writeBytes (Memory.write m base v) (base + 1) rest

/-- The canonical form: addresses strictly rising. (An unlisted address reads as no value at all here, so no entry can equal
what an unlisted address reads as; log 5.) -/
def Memory.wf : Memory → Bool
  | [] => true
  | [_] => true
  | (a, _) :: (b, w) :: rest => decide (a < b) && Memory.wf ((b, w) :: rest)

/-- The byte a buffer location holds: the one written last, and before any write the free value of the reset
(70_reset_and_hazards.md R175, 92 D35, log 3). -/
def State.bufByte (s : State) (a : Nat) : Byte :=
  (Memory.read? s.mem a).getD (Config.bufferDraw s.epoch a)

/-- Writes a byte sequence to the buffer locations from `base` on. -/
def State.store (s : State) (base : Nat) (bytes : Bytes) : State :=
  { s with mem := s.mem.writeBytes base bytes }

/-! ## Command issue and completion -/

/-- The command itself of a pending command. -/
def Cmd.instr : Cmd → Instr
  | .decode => .decode
  | .sync => .sync
  | .extract => .extract
  | .mdecode => .mdecode
  | .parse => .parse

/-- BUSY: a command is pending (10_state.md R25). -/
def State.busy (s : State) : Bool := s.pending.isSome

/-- The value of a pending command's input-length register (40_command_cycle.md R96). -/
def inputLength (c : Cmd) (s : State) : Nat :=
  match c with
  | .decode => s.inLen.toNat
  | .sync => s.inLen.toNat
  | .extract => s.flen.toNat
  | .mdecode => s.tlen.toNat
  | .parse => s.dlen.toNat

/-- The capacity of a pending command's input buffer (40_command_cycle.md R96, R103). -/
def capacity (c : Cmd) (p : Params) : Nat :=
  match c with
  | .decode => p.maxBits
  | .sync => p.maxBits
  | .extract => 1024
  | .mdecode => 1024
  | .parse => 1024

/-- `finish(c)`: the final action of every pending command (40_command_cycle.md R97). This, with the failing stage's writes,
is all that an error does: nothing traps (60_exceptions.md R164). -/
def finish (c : Code) (s : State) : State := { s with code := c, done := true, pending := none }

/-- An immediate rejection (40_command_cycle.md R102, R103): CODE and DONE and nothing else. -/
def reject (c : Code) (s : State) : State := { s with code := c, done := true }

/-- The acceptance of a command into PENDING (40_command_cycle.md R102): DONE <- 0, CODE unchanged. -/
def accept (c : Cmd) (s : State) : State := { s with pending := some c, done := false }

/-- The issue of a pending command (40_command_cycle.md R102) with its length check (R103). -/
def issue (c : Cmd) (s : State) : State :=
  if capacity c s.params < inputLength c s then reject .badLength s else accept c s

/-- What a pending command does in a state (log 7): issued where no command is pending (40_command_cycle.md R102); its
operation where it is the pending one (R104); nothing where another command is pending (20_memory.md R63). -/
def runPending (c : Cmd) (operation : State → State) (s : State) : State :=
  match s.pending with
  | none => issue c s
  | some p => if p = c then operation s else s

/-- What an immediate command does in a state (40_command_cycle.md R95): its operation where no command is pending, nothing
while one is (20_memory.md R63). -/
def runImmediate (operation : State → State) (s : State) : State :=
  match s.pending with
  | none => operation s
  | some _ => s

/-- `clear_packet()` (40_command_cycle.md R98). -/
def clearPacket (s : State) : State := { s with pkt := PacketGroup.zero }

/-! ## Reset -/

/-- Reset (70_reset_and_hazards.md R174): CORE's whole state becomes the reset state, with a new draw of buffer contents (R175).
What is not CORE's state stays: how it was built, what the host does next and what it has read (log 13). -/
def resetCore (s : State) : State :=
  { State.reset with params := s.params, epoch := s.epoch + 1, order := s.order, reads := s.reads }

end Sys2Proof.Machine
end

