-- ==== Sys2Proof/Machine/Operands.lean ====
section
/-! DEFINITION. The operands of the commands. They are all implicit (30_encoding.md R70): a buffer and the length register that
says how much of it is valid (40_command_cycle.md R96), read whole into a local sequence as the first action (R100). -/

namespace Sys2Proof.Machine

/-- IBUF starts here (20_memory.md R53). -/
def ibufBase : Nat := 0x1000

/-- FBUF starts here (20_memory.md R53). -/
def fbufBase : Nat := 0x1400

/-- TBUF starts here (20_memory.md R53). -/
def tbufBase : Nat := 0x1800

/-- DBUF starts here (20_memory.md R53). -/
def dbufBase : Nat := 0x1C00

/-- The first address after DBUF (20_memory.md R53). -/
def buffersEnd : Nat := 0x2000

/-- `IBUF[i]` (20_memory.md R62). -/
def State.ibufBit (s : State) (i : Nat) : Bool := streamBit (s.bufByte (ibufBase + i / 8)) i

/-- `FBUF[j]` (10_state.md R44). -/
def State.fbuf (s : State) (j : Nat) : Byte := s.bufByte (fbufBase + j)

/-- `TBUF[j]` (10_state.md R45). -/
def State.tbuf (s : State) (j : Nat) : Byte := s.bufByte (tbufBase + j)

/-- `DBUF[j]` (10_state.md R46). -/
def State.dbuf (s : State) (j : Nat) : Byte := s.bufByte (dbufBase + j)

/-- `IBUF[0 .. IN_LEN)`, the input of SYNC and DECODE (40_command_cycle.md R96). -/
def State.inputBits (s : State) : Bits := (List.range s.inLen.toNat).map s.ibufBit

/-- `FBUF[0 .. FLEN)`, the input of EXTRACT (40_command_cycle.md R96). -/
def State.inputFrame (s : State) : Bytes := (List.range s.flen.toNat).map s.fbuf

/-- `TBUF[0 .. TLEN)`, the input of MDECODE (40_command_cycle.md R96). -/
def State.inputSymbols (s : State) : Bytes := (List.range s.tlen.toNat).map s.tbuf

/-- `DBUF[0 .. DLEN)`, the input of PARSE (40_command_cycle.md R96). -/
def State.inputPacket (s : State) : Bytes := (List.range s.dlen.toNat).map s.dbuf

end Sys2Proof.Machine
end

