-- ==== Sys2Proof/Machine/Flags.lean ====
section
/-! DEFINITION. The status bits and the other views computed from the stored fields: CTRL, STATUS, TYPE, PRESENT, the group and
device ids, RAW_MSG and the interrupt output (10_state.md R22 to R25, R34 to R36, R47, R49). -/

namespace Sys2Proof.Machine

/-- The 4-bit value of a status code (60_exceptions.md R154). -/
def Code.bits : Code → BitVec 4
  | .ok => 0
  | .preambleError => 1
  | .syncError => 2
  | .eopError => 3
  | .manchesterError => 4
  | .checksumError => 5
  | .malformed => 6
  | .illegalCmd => 7
  | .badLength => 8

/-- A packet error, the source's base packet-error kind: `1 ≤ CODE ≤ 6` (60_exceptions.md R154). -/
def Code.isPacketError (c : Code) : Bool := 1 ≤ c.bits.toNat && c.bits.toNat ≤ 6

/-- A bit as a byte's bit 0. -/
def bitByte (b : Bool) : Byte := if b then 1 else 0

/-- The byte CTRL reads as (10_state.md R22). -/
def State.ctrl (s : State) : Byte := bitByte s.irqEn

/-- The byte STATUS reads as: `CODE | DONE << 4 | BUSY << 5` (10_state.md R25). -/
def State.status (s : State) : Byte :=
  s.code.bits.setWidth 8 ||| bitByte s.done <<< 4 ||| bitByte s.busy <<< 5

/-- TYPE, a view of FLAGS (10_state.md R34): INFO, RQ, RP and W in bits 0 to 3. -/
def PacketGroup.typeByte (k : PacketGroup) : Byte :=
  bitByte (k.flags.getLsbD 5) ||| bitByte (k.flags.getLsbD 3) <<< 1 ||| bitByte (k.flags.getLsbD 4) <<< 2 |||
    bitByte (k.flags.getLsbD 6) <<< 3

/-- PRESENT, a view of PKT_VALID, FLAGS and HEADER (10_state.md R35): A0V, A1V, A2V, P0V, P1V in bits 0 to 4, PKT_VALID in
bit 7. -/
def PacketGroup.present (k : PacketGroup) : Byte :=
  bitByte (k.pktValid && k.flags.getLsbD 0) ||| bitByte (k.pktValid && k.flags.getLsbD 1) <<< 1 |||
    bitByte (k.pktValid && k.flags.getLsbD 2) <<< 2 ||| bitByte (k.pktValid && k.header.getLsbD 1) <<< 3 |||
    bitByte (k.pktValid && k.header.getLsbD 0) <<< 4 ||| bitByte k.pktValid <<< 7

/-- The group id of an address, its top 6 bits (10_state.md R36). -/
def groupId (a : PacketAddr) : BitVec 6 := (a >>> 18).setWidth 6

/-- The device id of an address, its low 18 bits (10_state.md R36). -/
def deviceId (a : PacketAddr) : BitVec 18 := a.setWidth 18

/-- RAW_MSG: the bits of `FBUF[0 .. FLEN)`, each byte from bit 7 down (10_state.md R47). Where the host has stored an FLEN above
1024, FBUF has no byte `j` from 1024 on and the spec gives no value: the view then reads on at 0x1400 + j, in TBUF, in DBUF and
above (DESIGN CHOICE, log 18). -/
def State.rawMsg (s : State) : Bits := s.inputFrame.flatMap byteBits

/-- The output `irq`, a level: `DONE ∧ IRQ_EN` (10_state.md R49, 60_exceptions.md R166). -/
def State.irq (s : State) : Bool := s.done && s.irqEn

end Sys2Proof.Machine
end

