-- ==== Sys2Proof/Machine/Bus.lean ====
section
/-! DEFINITION. The block address space: what each address reads and what a write to it stores (20_memory.md R51 to R63). The
issue of a command by a write to OP is in Machine/Agents.lean. -/

namespace Sys2Proof.Machine

/-- Byte `i` of PAYLOAD (10_state.md R42). -/
def PacketGroup.payloadByte (k : PacketGroup) (i : Nat) : Byte := k.payload.toList.getD i 0

/-- The registers at 0x0000 to 0x0027 (20_memory.md R54). OP and the reserved offsets read 0 (10_state.md R21, 20_memory.md
R59). -/
def State.readRegister (s : State) (offset : Nat) : Byte :=
  match offset with
  | 0x01 => s.ctrl
  | 0x02 => s.status
  | 0x04 => hiByte s.inLen
  | 0x05 => loByte s.inLen
  | 0x06 => hiByte s.flen
  | 0x07 => loByte s.flen
  | 0x08 => hiByte s.tlen
  | 0x09 => loByte s.tlen
  | 0x0A => hiByte s.dlen
  | 0x0B => loByte s.dlen
  | 0x0C => hiByte s.preRun
  | 0x0D => loByte s.preRun
  | 0x0E => hiByte s.pkt.pcons
  | 0x0F => loByte s.pkt.pcons
  | 0x10 => s.pkt.header
  | 0x11 => s.pkt.flags
  | 0x12 => s.pkt.typeByte
  | 0x13 => s.pkt.present
  | 0x14 => packetAddrByte s.pkt.addr0 2
  | 0x15 => packetAddrByte s.pkt.addr0 1
  | 0x16 => packetAddrByte s.pkt.addr0 0
  | 0x18 => packetAddrByte s.pkt.addr1 2
  | 0x19 => packetAddrByte s.pkt.addr1 1
  | 0x1A => packetAddrByte s.pkt.addr1 0
  | 0x1C => packetAddrByte s.pkt.addr2 2
  | 0x1D => packetAddrByte s.pkt.addr2 1
  | 0x1E => packetAddrByte s.pkt.addr2 0
  | 0x20 => s.pkt.param0
  | 0x21 => s.pkt.param1
  | 0x22 => hiByte s.pkt.pcmd
  | 0x23 => loByte s.pkt.pcmd
  | 0x24 => s.pkt.len
  | 0x25 => s.pkt.plen
  | 0x26 => s.pkt.csum
  | _ => 0

/-- The addresses of the buffers: the first `MAX_BITS`/8 bytes of the IBUF window, and FBUF, TBUF and DBUF (20_memory.md
R53). -/
def isBufferAddress (p : Params) (a : Nat) : Bool :=
  (ibufBase ≤ a && a < fbufBase && a < ibufBase + p.maxBits / 8) || (fbufBase ≤ a && a < buffersEnd)

/-- `MemRead(a, 1)`: the byte an address reads (20_memory.md R51, R53). A reserved address reads 0 (R59). -/
def State.busRead (s : State) (address : Addr) : Byte :=
  let a := address.toNat
  if a < 0x28 then s.readRegister a
  else if 0x100 ≤ a ∧ a ≤ 0x1FE then s.pkt.payloadByte (a - 0x100)
  else if isBufferAddress s.params a then s.bufByte a
  else 0

/-- A write to a register other than OP (20_memory.md R54): CTRL bit 0, the write-1-to-clear DONE of STATUS (10_state.md R24),
the lengths byte by byte (20_memory.md R56). A write to a read-only or reserved offset is ignored. -/
def State.writeRegister (s : State) (offset : Nat) (v : Byte) : State :=
  match offset with
  | 0x01 => { s with irqEn := v.getLsbD 0 }
  | 0x02 => if v.getLsbD 4 then { s with done := false } else s
  | 0x04 => { s with inLen := withHi s.inLen v }
  | 0x05 => { s with inLen := withLo s.inLen v }
  | 0x06 => { s with flen := withHi s.flen v }
  | 0x07 => { s with flen := withLo s.flen v }
  | 0x08 => { s with tlen := withHi s.tlen v }
  | 0x09 => { s with tlen := withLo s.tlen v }
  | 0x0A => { s with dlen := withHi s.dlen v }
  | 0x0B => { s with dlen := withLo s.dlen v }
  | _ => s

/-- What a write to an address other than OP stores while no command is pending (20_memory.md R53, R54, R59). -/
def State.busStore (s : State) (address : Addr) (v : Byte) : State :=
  let a := address.toNat
  if a < 0x28 then s.writeRegister a v
  else if isBufferAddress s.params a then s.store a [v]
  else s

end Sys2Proof.Machine
end

