-- ==== Sys2Proof/Machine/Control.lean ====
section
/-! DEFINITION. The immediate commands NOP and CLEAR (46_control.md). -/

namespace Sys2Proof.Machine

/-- NOP (46_control.md R151): no state changes, not even DONE. -/
def execNop (s : State) : Host.Outcome State Fault Refusal := .next (runImmediate id s)

/-- The operation of CLEAR (46_control.md R152). -/
def clearAll (s : State) : State :=
  clearPacket { s with code := .ok, done := false, preRun := 0 }

/-- CLEAR (46_control.md R152). -/
def execClear (s : State) : Host.Outcome State Fault Refusal := .next (runImmediate clearAll s)

end Sys2Proof.Machine
end

