-- ==== Sys2Proof/Machine/Extract.lean ====
section
/-! DEFINITION. EXTRACT, the frame extractor (42_extract.md). -/

namespace Sys2Proof.Machine

/-- The sync word (30_encoding.md R77). -/
def syncWord : Bytes := [0xFF, 0x00, 0x33, 0x55, 0x53]

/-- The stop byte (30_encoding.md R78). -/
def stopByte : Byte := 0x35

/-- What `extract_fn` returns (42_extract.md R119). -/
inductive ExtractResult where
  | errSync
  | errEop
  | ok (out : Bytes)
  deriving DecidableEq, Repr

/-- The bytes before the first stop byte, `none` where there is no stop byte (42_extract.md R118). -/
def beforeStop : Bytes → Option Bytes
  | [] => none
  | b :: rest => if b = stopByte then some [] else (beforeStop rest).map (b :: ·)

/-- `extract_fn` (42_extract.md R119): the sync check first, then the stop search in what follows the sync word. -/
def extractFn (f : Bytes) : ExtractResult :=
  if f.length < 5 then .errSync
  else if f.take 5 ≠ syncWord then .errSync
  else
    match beforeStop (f.drop 5) with
    | none => .errEop
    | some out => .ok out

/-- What EXTRACT and DECODE write of the extractor's result (42_extract.md R121, 45_decode.md R146). -/
def writeExtract (r : ExtractResult) (s : State) : State :=
  match r with
  | .errSync => { s with tlen := 0 }
  | .errEop => { s with tlen := 0 }
  | .ok out => { s.store tbufBase out with tlen := BitVec.ofNat 16 out.length }

/-- The status code of the extractor's result (42_extract.md R121). -/
def extractCode : ExtractResult → Code
  | .errSync => .syncError
  | .errEop => .eopError
  | .ok _ => .ok

/-- The operation of EXTRACT at its completion step (42_extract.md R121). -/
def completeExtract (s : State) : State :=
  let r := extractFn s.inputFrame
  finish (extractCode r) (writeExtract r s)

/-- EXTRACT (42_extract.md R121): its issue and its completion. -/
def execExtract (s : State) : Host.Outcome State Fault Refusal := .next (runPending .extract completeExtract s)

end Sys2Proof.Machine
end

