-- ==== Sys2Proof/Machine/Manchester.lean ====
section
/-! DEFINITION. MDECODE, the Manchester decoder (43_manchester.md). -/

namespace Sys2Proof.Machine

/-- What `mdecode_fn` returns (43_manchester.md R127). -/
inductive MdecodeResult where
  | err
  | ok (out : Bytes)
  deriving DecidableEq, Repr

/-- `nib(x)`: the nibble of a symbol, its position in `MT`, the smallest where it stands there twice (43_manchester.md
R123). -/
def nib (mt : Vector Byte 16) (x : Byte) : Option Nat := indexOf x mt.toList

/-- The byte of a pair of symbols, the first symbol the high nibble (43_manchester.md R124). -/
def pairByte (mt : Vector Byte 16) (s0 s1 : Byte) : Option Byte :=
  match nib mt s0, nib mt s1 with
  | some hi, some lo => some (BitVec.ofNat 8 (hi <<< 4 ||| lo))
  | _, _ => none

/-- The bytes of the pairs of a symbol sequence, `none` where a paired symbol is invalid; an odd last symbol is dropped unread
(43_manchester.md R124 to R126). -/
def decodePairs (mt : Vector Byte 16) : Bytes → Option Bytes
  | s0 :: s1 :: rest =>
    match pairByte mt s0 s1 with
    | none => none
    | some b => (decodePairs mt rest).map (b :: ·)
  | _ => some []

/-- `mdecode_fn` (43_manchester.md R127). -/
def mdecodeFn (mt : Vector Byte 16) (t : Bytes) : MdecodeResult :=
  match decodePairs mt t with
  | none => .err
  | some out => .ok out

/-- What MDECODE and DECODE write of the Manchester decoder's result (43_manchester.md R128, 45_decode.md R146). -/
def writeMdecode (r : MdecodeResult) (s : State) : State :=
  match r with
  | .err => { s with dlen := 0 }
  | .ok out => { s.store dbufBase out with dlen := BitVec.ofNat 16 out.length }

/-- The status code of the Manchester decoder's result (43_manchester.md R128). -/
def mdecodeCode : MdecodeResult → Code
  | .err => .manchesterError
  | .ok _ => .ok

/-- The operation of MDECODE at its completion step (43_manchester.md R128). -/
def completeMdecode (s : State) : State :=
  let r := mdecodeFn s.params.mt s.inputSymbols
  finish (mdecodeCode r) (writeMdecode r s)

/-- MDECODE (43_manchester.md R128): its issue and its completion. -/
def execMdecode (s : State) : Host.Outcome State Fault Refusal := .next (runPending .mdecode completeMdecode s)

end Sys2Proof.Machine
end

