-- ==== Sys2Proof/Machine/Parse.lean ====
section
/-! DEFINITION. PARSE, the checksum validator and packet parser (44_parse.md). -/

namespace Sys2Proof.Machine

/-- The fields of a parsed packet (44_parse.md R141). `plen` is the length of `payload`. -/
structure PacketFields where
  header : Byte
  flags : Byte
  addr0 : PacketAddr
  addr1 : PacketAddr
  addr2 : PacketAddr
  param0 : Byte
  param1 : Byte
  pcmd : Half
  len : Byte
  payload : Bytes
  deriving DecidableEq, Repr

/-- What `parse_fn` returns (44_parse.md R141): the checksum, the consumed count and the packet, as far as there are any. -/
inductive ParseResult where
  | errChecksum (cs : Byte)
  | errMalformed (cs : Byte) (pos : Nat)
  | ok (pk : PacketFields) (cs : Byte) (pos : Nat)
  deriving DecidableEq, Repr

/-- The rolling checksum: the sum of all bytes modulo 256 (44_parse.md R130). -/
def checksum : Bytes → Byte
  | [] => 0
  | b :: rest => b + checksum rest

/-- Byte `p` of the packet. Only read where `need` has passed (44_parse.md R132). -/
def byteAt (d : Bytes) (p : Nat) : Byte := d.getD p 0

/-- `asm3(d, p)`: an address field (44_parse.md R135; 30_encoding.md R86, R88). -/
def asm3 (fa : FieldAssembly) (d : Bytes) (p : Nat) : PacketAddr :=
  match fa with
  | .successive => packetAddr (byteAt d p) (byteAt d (p + 1)) (byteAt d (p + 2))
  | .repeatFirst => packetAddr (byteAt d p) (byteAt d p) (byteAt d p)

/-- `asm2(d, p)`: the command field (44_parse.md R137; 30_encoding.md R87, R88). -/
def asm2 (fa : FieldAssembly) (d : Bytes) (p : Nat) : Half :=
  match fa with
  | .successive => half (byteAt d p) (byteAt d (p + 1))
  | .repeatFirst => half (byteAt d p) (byteAt d p)

/-- A field of `k` bytes at the cursor: `need(k)`, then its value and the cursor after it; where it does not fit, the cursor at
that moment (44_parse.md R132). -/
def takeField {α : Type} (k : Nat) (value : Bytes → Nat → α) (d : Bytes) (pos : Nat) : Except Nat (α × Nat) :=
  if pos + k ≤ d.length then .ok (value d pos, pos + k) else .error pos

/-- A gated field: read as takeField does where it is present, and where it is absent the value 0, the cursor unchanged
(44_parse.md R135, R136). -/
def gatedField {α : Type} (present : Bool) (k : Nat) (value : Bytes → Nat → α) (absent : α) (d : Bytes) (pos : Nat) :
    Except Nat (α × Nat) :=
  if present then takeField k value d pos else .ok (absent, pos)

/-- The payload of `len` bytes at the cursor; where fewer remain, what PAYLOAD_SHORTFALL says (44_parse.md R139). -/
def takePayload (ps : PayloadShortfall) (len : Nat) (d : Bytes) (pos : Nat) : Except Nat (Bytes × Nat) :=
  if pos + len ≤ d.length then .ok ((d.drop pos).take len, pos + len)
  else
    match ps with
    | .malformed => .error pos
    | .truncate => .ok (d.drop pos, d.length)

/-- `HF[(header >> 2) & 0x0F]` (44_parse.md R133, 90_conflicts.md C1). -/
def headerFlags (hf : Vector Byte 16) (header : Byte) : Byte := hf.toList.getD ((header >>> 2 &&& 0x0F).toNat) 0

/-- Steps 2 to 8 of the parser (44_parse.md R133 to R140): the packet and the final cursor, or the cursor where a field did not
fit. -/
def parseFields (p : Params) (d : Bytes) : Except Nat (PacketFields × Nat) := do
  let (header, pos) ← takeField 1 byteAt d 0
  let flags := headerFlags p.hf header
  let (addr0, pos) ← gatedField (flags.getLsbD 0) 3 (asm3 p.fieldAssembly) 0 d pos
  let (addr1, pos) ← gatedField (flags.getLsbD 1) 3 (asm3 p.fieldAssembly) 0 d pos
  let (addr2, pos) ← gatedField (flags.getLsbD 2) 3 (asm3 p.fieldAssembly) 0 d pos
  let (param0, pos) ← gatedField (header.getLsbD 1) 1 byteAt 0 d pos
  let (param1, pos) ← gatedField (header.getLsbD 0) 1 byteAt 0 d pos
  let (pcmd, pos) ← takeField 2 (asm2 p.fieldAssembly) d pos
  let (len, pos) ← takeField 1 byteAt d pos
  let (payload, pos) ← takePayload p.payloadShortfall len.toNat d pos
  return ({ header, flags, addr0, addr1, addr2, param0, param1, pcmd, len, payload }, pos)

/-- `parse_fn` (44_parse.md R141). -/
def parseFn (p : Params) (d : Bytes) : ParseResult :=
  let cs := checksum d
  if cs ≠ 0 then .errChecksum cs
  else
    match parseFields p d with
    | .error pos => .errMalformed cs pos
    | .ok (pk, pos) => .ok pk cs pos

/-- The packet-result group of a successful parse (44_parse.md R142). -/
def PacketFields.group (pk : PacketFields) (cs : Byte) (pos : Nat) : PacketGroup where
  pktValid := true
  header := pk.header
  flags := pk.flags
  addr0 := pk.addr0
  addr1 := pk.addr1
  addr2 := pk.addr2
  param0 := pk.param0
  param1 := pk.param1
  pcmd := pk.pcmd
  len := pk.len
  plen := BitVec.ofNat 8 pk.payload.length
  csum := cs
  pcons := BitVec.ofNat 16 pos
  payload := padTo 255 pk.payload

/-- What PARSE and DECODE write of the parser's result into the packet-result group they have cleared (44_parse.md R142,
45_decode.md R146). -/
def writeParse (r : ParseResult) (s : State) : State :=
  match r with
  | .errChecksum cs => { s with pkt := { s.pkt with csum := cs, pcons := 0 } }
  | .errMalformed cs pos => { s with pkt := { s.pkt with csum := cs, pcons := BitVec.ofNat 16 pos } }
  | .ok pk cs pos => { s with pkt := pk.group cs pos }

/-- The status code of the parser's result (44_parse.md R142). -/
def parseCode : ParseResult → Code
  | .errChecksum _ => .checksumError
  | .errMalformed _ _ => .malformed
  | .ok _ _ _ => .ok

/-- The operation of PARSE at its completion step (44_parse.md R142). -/
def completeParse (s : State) : State :=
  let r := parseFn s.params s.inputPacket
  finish (parseCode r) (writeParse r (clearPacket s))

/-- PARSE (44_parse.md R142): its issue and its completion. -/
def execParse (s : State) : Host.Outcome State Fault Refusal := .next (runPending .parse completeParse s)

end Sys2Proof.Machine
end

