-- ==== Sys2Proof/Machine/Sync.lean ====
section
/-! DEFINITION. SYNC, the bit synchronizer (41_sync.md). -/

namespace Sys2Proof.Machine

/-- What `sync_fn` returns (41_sync.md R114): the run length, and the bytes where it succeeds. -/
inductive SyncResult where
  | err (run : Nat)
  | ok (out : Bytes) (run : Nat)
  deriving DecidableEq, Repr

/-- `run_len`: the length of the longest alternating beginning of a bitstream, up to its first two equal bits in a row
(41_sync.md R108). -/
def runLen : Bits → Nat
  | [] => 0
  | [_] => 1
  | a :: b :: rest => if a = b then 1 else runLen (b :: rest) + 1

/-- The bytes of the first `m` 10-bit chunks of a realigned stream (41_sync.md R111). -/
def deframe : Nat → Bits → Bytes
  | 0, _ => []
  | m + 1, bits => framedByte (bits.take 10) :: deframe m (bits.drop 10)

/-- `sync_fn` (41_sync.md R114). -/
def syncFn (bits : Bits) : SyncResult :=
  let n := bits.length
  let run := runLen bits
  if run = n ∨ run < 2 then .err run
  else .ok (deframe ((n - (run - 2)) / 10) (bits.drop (run - 2))) run

/-- What SYNC and DECODE write of the synchronizer's result (41_sync.md R115, 45_decode.md R146). -/
def writeSync (r : SyncResult) (s : State) : State :=
  match r with
  | .err run => { s with preRun := BitVec.ofNat 16 run, flen := 0 }
  | .ok out run =>
    { s.store fbufBase out with preRun := BitVec.ofNat 16 run, flen := BitVec.ofNat 16 out.length }

/-- The status code of the synchronizer's result (41_sync.md R115). -/
def syncCode : SyncResult → Code
  | .err _ => .preambleError
  | .ok _ _ => .ok

/-- The operation of SYNC at its completion step (41_sync.md R115). -/
def completeSync (s : State) : State :=
  let r := syncFn s.inputBits
  finish (syncCode r) (writeSync r s)

/-- SYNC (41_sync.md R115): its issue and its completion. -/
def execSync (s : State) : Host.Outcome State Fault Refusal := .next (runPending .sync completeSync s)

end Sys2Proof.Machine
end

