-- ==== Sys2Proof/Machine/Facade.lean ====
section
/-! DEFINITION. DECODE, the whole pipeline (45_decode.md). Each stage's output goes to the next stage as a value and is also
written to the stage's buffer (40_command_cycle.md R100); the first stage that fails ends the command with its own code
(45_decode.md R147). -/

namespace Sys2Proof.Machine

/-- The pipeline from the packet bytes on (45_decode.md R146, `r4`). -/
def decodeFromPacket (d : Bytes) (s : State) : State :=
  let r := parseFn s.params d
  finish (parseCode r) (writeParse r s)

/-- The pipeline from the symbols on (45_decode.md R146, `r3`). -/
def decodeFromSymbols (t : Bytes) (s : State) : State :=
  match mdecodeFn s.params.mt t with
  | .err => finish .manchesterError (writeMdecode .err s)
  | .ok d => decodeFromPacket d (writeMdecode (.ok d) s)

/-- The pipeline from the framed bytes on (45_decode.md R146, `r2`). -/
def decodeFromFrame (f : Bytes) (s : State) : State :=
  match extractFn f with
  | .errSync => finish .syncError (writeExtract .errSync s)
  | .errEop => finish .eopError (writeExtract .errEop s)
  | .ok t => decodeFromSymbols t (writeExtract (.ok t) s)

/-- The pipeline from the bits on (45_decode.md R146, `r1`). -/
def decodeFromBits (bits : Bits) (s : State) : State :=
  match syncFn bits with
  | .err run => finish .preambleError (writeSync (.err run) s)
  | .ok f run => decodeFromFrame f (writeSync (.ok f run) s)

/-- The operation of DECODE at its completion step (45_decode.md R146). -/
def completeDecode (s : State) : State := decodeFromBits s.inputBits (clearPacket s)

/-- DECODE (45_decode.md R146): its issue and its completion. -/
def execDecode (s : State) : Host.Outcome State Fault Refusal := .next (runPending .decode completeDecode s)

end Sys2Proof.Machine
end

