-- ==== Sys2Proof/Machine/Dispatch.lean ====
section
/-! DEFINITION. exec: one arm for each command, each arm one call of that command's meaning. -/

namespace Sys2Proof.Machine

/-- What a command does in a state (log 7). -/
def exec (i : Instr) (s : State) : Host.Outcome State Fault Refusal :=
  match i with
  | .nop => Sys2Proof.Machine.execNop s
  | .decode => Sys2Proof.Machine.execDecode s
  | .sync => Sys2Proof.Machine.execSync s
  | .extract => Sys2Proof.Machine.execExtract s
  | .mdecode => Sys2Proof.Machine.execMdecode s
  | .parse => Sys2Proof.Machine.execParse s
  | .clear => Sys2Proof.Machine.execClear s

end Sys2Proof.Machine
end

