-- ==== Sys2Proof/Machine/Agents.lean ====
section
/-! DEFINITION. The two agents, HOST and ENGINE (10_state.md R17), and one event of the execution order (20_memory.md R65). -/

namespace Sys2Proof.Machine

/-- A write to OP while no command is pending: the command of the byte is issued, and an illegal opcode is rejected with
ILLEGAL_CMD (40_command_cycle.md R102, 46_control.md R153). -/
def issueOpcode (v : Byte) (s : State) : Host.Outcome State Fault Refusal :=
  match decode [v] with
  | .ok (i, _) => exec i s
  | .error _ => .next (reject .illegalCmd s)

/-- `MemWrite(a, 1, v)` by the HOST. While BUSY = 1 it is ignored, whatever the address (20_memory.md R63). -/
def hostWrite (a : Addr) (v : Byte) (s : State) : Host.Outcome State Fault Refusal :=
  if s.busy then .next s
  else if a = 0 then issueOpcode v s
  else .next (s.busStore a v)

/-- `MemRead(a, 1)` by the HOST: the byte goes to the host, nothing of CORE changes (20_memory.md R60). -/
def hostRead (a : Addr) (s : State) : State := { s with reads := (a, s.busRead a) :: s.reads }

/-- The ENGINE's step: the completion of the pending command, enabled exactly while there is one (40_command_cycle.md R104). -/
def engineStep (s : State) : Host.Outcome State Fault Refusal :=
  match s.pending with
  | none => .next s
  | some c => exec c.instr s

/-- One poll of the WAIT loop (30_encoding.md R94): a read of STATUS; while BUSY = 1 the host stays in the loop. Where the draw
of polls is used up and BUSY is still 1, the ENGINE takes its step, as fairness demands (70_reset_and_hazards.md R183, log 8). -/
def pollStatus (polls : Nat) (s : State) : Host.Outcome State Fault Refusal :=
  if s.busy then
    match polls with
    | 0 => engineStep { s with order := .wait 0 :: s.order }
    | k + 1 => .next (hostRead 0x0002 { s with order := .wait k :: s.order })
  else .next (hostRead 0x0002 s)

/-- One event, already taken off the front of the order. -/
def takeEvent (e : Event) (s : State) : Host.Outcome State Fault Refusal :=
  match e with
  | .read a => .next (hostRead a s)
  | .write a v => hostWrite a v s
  | .wait polls => pollStatus polls s
  | .engine => engineStep s
  | .reset => .next (resetCore s)

/-- One step of the execution: the next event of the order; and where the order is used up, the ENGINE's step, which fairness
does not let wait for ever (70_reset_and_hazards.md R183, log 2). With no command pending CORE then stays as it is
(60_exceptions.md R173). -/
def advance (s : State) : Host.Outcome State Fault Refusal :=
  match s.order with
  | [] => engineStep s
  | e :: rest => takeEvent e { s with order := rest }

/-- The state whose next event is the host's write of an opcode byte to OP, with no command pending, so that the write is not
ignored (log 6). -/
def placeCommand (v : Byte) (s : State) : State := { s with pending := none, order := .write 0x0000 v :: s.order }

end Sys2Proof.Machine
end

