-- ==== Sys2Proof/Machine/Step.lean ====
section
/-! DEFINITION. The step of the machine, and the placing of a command where the next step takes it up. -/

namespace Sys2Proof.Machine

/-- One step: of HOST, of ENGINE, or a reset, as the execution order says (20_memory.md R65). -/
def step (s : State) : Host.Outcome State Fault Refusal := advance s

/-- The state whose next step issues the command with the bits `w` (log 6). Every command is one byte. -/
def State.withFetchWord (s : State) (nbits w : Nat) : State :=
  placeCommand ((tableWordBytes nbits w).headD 0) s

end Sys2Proof.Machine
end

