-- ==== Sys2Proof/Machine/HostProgram.lean ====
section
/-! DEFINITION. The host program notation of 30_encoding.md R93 and R94: the instructions, the bus transactions they expand to, and
the values the host keeps of what it reads. -/

namespace Sys2Proof.Machine

/-- The length registers a SETLEN names (30_encoding.md R94). -/
inductive LengthRegister where
  | inLen
  | flen
  | tlen
  | dlen
  deriving DecidableEq, Repr

/-- A host instruction `W` or `R` (30_encoding.md R93), or a pseudo-instruction (R94). -/
inductive HostOp where
  | w (a : Addr) (v : Byte)
  | r (a : Addr)
  | issue (m : Instr)
  | setLen (r : LengthRegister) (v : Half)
  | load (base : Addr) (bytes : Bytes)
  | loadBits (bits : Bits)
  | wait (polls : Nat)
  | ack
  | r16 (off : Addr)
  | r24 (off : Addr)
  deriving DecidableEq, Repr

/-- `off` of a SETLEN (30_encoding.md R94). -/
def LengthRegister.offset : LengthRegister → Addr
  | .inLen => 0x0004
  | .flen => 0x0006
  | .tlen => 0x0008
  | .dlen => 0x000A

/-- `SETLEN reg, v` (30_encoding.md R94): the high byte, then the low byte. -/
def expandSetLen (r : LengthRegister) (v : Half) : List Event :=
  [.write r.offset (hiByte v), .write (r.offset + 1) (loByte v)]

/-- `LOAD base, b0 b1 …` (30_encoding.md R94). -/
def expandLoad (base : Addr) : Bytes → List Event
  | [] => []
  | b :: rest => .write base b :: expandLoad (base + 1) rest

/-- The bus transactions of a host instruction (30_encoding.md R93, R94). The offsets of an R16 or R24 that run past 0xFFFF go on
from 0x0000: the model's choice, R94 is silent there (DESIGN CHOICE, log 17). -/
def expand : HostOp → List Event
  | .w a v => [.write a v]
  | .r a => [.read a]
  | .issue m => [.write 0x0000 (opcode m)]
  | .setLen r v => expandSetLen r v
  | .load base bytes => expandLoad base bytes
  | .loadBits bits => expandLoad 0x1000 (packBits bits) ++ expandSetLen .inLen (BitVec.ofNat 16 bits.length)
  | .wait polls => [.wait polls]
  | .ack => [.write 0x0002 0x10]
  | .r16 off => [.read off, .read (off + 1)]
  | .r24 off => [.read off, .read (off + 1), .read (off + 2)]

/-- A value that the host keeps under a name: the byte of an `R`, the 16-bit value of an `R16`, the 24-bit value of an `R24`
(30_encoding.md R93, R94). -/
inductive HostValue where
  | byte (v : Byte)
  | half (v : Half)
  | packetAddr (v : PacketAddr)
  deriving DecidableEq, Repr

/-- `v` of a host instruction that reads, from what the host has read when its last transaction is done, the newest first:
`h << 8 | l` for an `R16`, and its 3-byte form for an `R24`, the byte read first the most significant; for a WAIT the `s` that
ended it (30_encoding.md R93, R94). `none` for an instruction that keeps no value, or where too little has been read. -/
def HostOp.value (op : HostOp) (reads : List (Addr × Byte)) : Option HostValue :=
  match op, reads with
  | .r _, (_, b) :: _ => some (.byte b)
  | .wait _, (_, s) :: _ => some (.byte s)
  | .r16 _, (_, l) :: (_, h) :: _ => some (.half (half h l))
  | .r24 _, (_, b0) :: (_, b1) :: (_, b2) :: _ => some (.packetAddr (packetAddr b2 b1 b0))
  | _, _ => none

/-- A host program as the events it puts into the execution order. -/
def hostProgram (ops : List HostOp) : List Event := ops.flatMap expand

end Sys2Proof.Machine
end

