-- ==== Sys2Proof/WellFormed.lean ====
section
/-! DEFINITION. What makes an instruction and a parameter record well formed. A command has no operand, so every command is
well formed (30_encoding.md R70); the parameters of 00_scope.md R7 have the three limits of R7 and R8. -/

namespace Sys2Proof

/-- Every command is well formed: OP8 has no operand field that could hold a wrong value (30_encoding.md R70). -/
def Instr.wf : Instr → Bool
  | .nop => true
  | .decode => true
  | .sync => true
  | .extract => true
  | .mdecode => true
  | .parse => true
  | .clear => true

/-- `MAX_BITS` lies between 24 and 8192 (00_scope.md R7). -/
def Params.maxBitsInRange (p : Params) : Bool := 24 ≤ p.maxBits && p.maxBits ≤ 8192

/-- `MAX_BITS` is a multiple of 8 (00_scope.md R7). -/
def Params.maxBitsWholeBytes (p : Params) : Bool := p.maxBits % 8 == 0

/-- `MT` has 16 distinct entries (00_scope.md R8). The machine also runs on a table with repeats, where the smallest index
counts, as R8 allows. -/
def Params.symbolsDistinct (p : Params) : Bool := decide p.mt.toList.Nodup

/-- The limits of 00_scope.md R7 on `MAX_BITS`. -/
def Params.capacityOk (p : Params) : Bool := p.maxBitsInRange && p.maxBitsWholeBytes

/-- A parameter record that 00_scope.md R7 and R8 allow. -/
def Params.wf (p : Params) : Bool := p.capacityOk && p.symbolsDistinct

end Sys2Proof
end

