-- ==== Sys2Proof/Safety.lean ====
section
/-! DEFINITION. What counts as a good state of CORE: the relations between the fields that the spec's rules keep, whatever the
host does. The claims about the machine are stated in these terms. -/

namespace Sys2Proof.Machine

/-- The 13 fields of the packet-result group that every failure leaves 0: all but CSUM and PCONS, and PKT_VALID itself
(10_state.md section 7, 44_parse.md R142). -/
def PacketGroup.fieldsZero (k : PacketGroup) : Prop :=
  k = { PacketGroup.zero with csum := k.csum, pcons := k.pcons }

/-- The group holds one whole packet, as 44_parse.md R142 stores it: the checksum passed, FLAGS is the header's entry of HF, an
absent field is 0, PLEN is within LEN, and nothing lies in PAYLOAD from PLEN on (10_state.md R33, R36, R37, R40 to R42). -/
structure PacketGroup.Whole (p : Params) (k : PacketGroup) : Prop where
  csum_zero : k.csum = 0
  flags_of_header : k.flags = headerFlags p.hf k.header
  addr0_absent : k.flags.getLsbD 0 = false → k.addr0 = 0
  addr1_absent : k.flags.getLsbD 1 = false → k.addr1 = 0
  addr2_absent : k.flags.getLsbD 2 = false → k.addr2 = 0
  param0_absent : k.header.getLsbD 1 = false → k.param0 = 0
  param1_absent : k.header.getLsbD 0 = false → k.param1 = 0
  plen_le_len : k.plen.toNat ≤ k.len.toNat
  plen_eq_len : p.payloadShortfall = .malformed → k.plen = k.len
  payload_rest_zero : ∀ i, k.plen.toNat ≤ i → k.payload.toList.getD i 0 = 0

/-- A packet is whole, or nothing of one is visible; and a checksum failure has consumed nothing (10_state.md section 7,
R31). -/
structure PacketGroup.Good (p : Params) (k : PacketGroup) : Prop where
  whole_if_valid : k.pktValid = true → PacketGroup.Whole p k
  zero_if_invalid : k.pktValid = false → k.fieldsZero
  pcons_zero_if_csum : k.csum ≠ 0 → k.pcons = 0

/-- The listed locations are buffer locations (20_memory.md R53). -/
def Memory.inBuffers (m : Memory) : Prop := ∀ c ∈ m, ibufBase ≤ c.1 ∧ c.1 < buffersEnd

/-- A good state. -/
structure State.Good (s : State) : Prop where
  capacity_ok : s.params.capacityOk = true
  mem_wf : Memory.wf s.mem = true
  mem_inBuffers : Memory.inBuffers s.mem
  /-- DONE = 0 while a command is pending (20_memory.md R64). -/
  pending_not_done : ∀ c, s.pending = some c → s.done = false
  /-- A pending command has passed the length check (40_command_cycle.md R103). -/
  pending_fits : ∀ c, s.pending = some c → inputLength c s ≤ capacity c s.params
  packet_good : PacketGroup.Good s.params s.pkt

/-- The length of the execution still to come, counted in steps: each event one, a WAIT its polls and the ENGINE step and the
poll that ends it, and one ENGINE step at the end. -/
def stepsLeft : List Event → Nat
  | [] => 1
  | .wait polls :: rest => polls + 2 + stepsLeft rest
  | _ :: rest => 1 + stepsLeft rest

/-! ## The words of the claims, written apart from the functions of the machine -/

/-- `L` is the run length of the first `n` bits of a stream: the first place where two equal bits follow each other, or `n`
where there is none (41_sync.md R108). -/
def IsRunLength (n : Nat) (bit : Nat → Bool) (L : Nat) : Prop :=
  (1 ≤ L ∧ L < n ∧ bit L = bit (L - 1) ∧ ∀ k, 1 ≤ k → k < L → bit k ≠ bit (k - 1)) ∨
    (L = n ∧ ∀ k, 1 ≤ k → k < n → bit k ≠ bit (k - 1))

/-- The first five of `n` bytes are the sync word FF 00 33 55 53 (42_extract.md R116, R117). -/
def SyncWordMatches (n : Nat) (f : Nat → Byte) : Prop :=
  5 ≤ n ∧ f 0 = 0xFF ∧ f 1 = 0x00 ∧ f 2 = 0x33 ∧ f 3 = 0x55 ∧ f 4 = 0x53

/-- `p` is the place of the first stop byte after the sync word (42_extract.md R118). -/
def IsFirstStop (n : Nat) (f : Nat → Byte) (p : Nat) : Prop :=
  5 ≤ p ∧ p < n ∧ f p = 0x35 ∧ ∀ q, 5 ≤ q → q < p → f q ≠ 0x35

/-- `v` is the nibble of the symbol `x`: the smallest index that holds it (43_manchester.md R123). -/
def IsNibble (mt : Vector Byte 16) (x : Byte) (v : Nat) : Prop :=
  mt.toList[v]? = some x ∧ ∀ u, u < v → mt.toList[u]? ≠ some x

/-- The sum of the first `n` bytes, not yet reduced (44_parse.md R130). -/
def byteSum (n : Nat) (d : Nat → Byte) : Nat := ((List.range n).map fun i => (d i).toNat).sum

/-- Where the fields of a packet begin, and where the payload would end (30_encoding.md R83). -/
structure PacketLayout where
  flags : Byte
  addr0 : Nat
  addr1 : Nat
  addr2 : Nat
  param0 : Nat
  param1 : Nat
  command : Nat
  length : Nat
  payload : Nat
  payloadEnd : Nat

/-- The layout that the header of a packet gives it: 3 bytes for each address bit of the flags, 1 for each parameter bit of the
header, 2 for the command, 1 for the length (30_encoding.md R83, R84, R85). -/
def packetLayout (p : Params) (d : Nat → Byte) : PacketLayout :=
  let flags := p.hf.toList.getD ((d 0).toNat / 4 % 16) 0
  let addr1 := 1 + 3 * (flags.getLsbD 0).toNat
  let addr2 := addr1 + 3 * (flags.getLsbD 1).toNat
  let param0 := addr2 + 3 * (flags.getLsbD 2).toNat
  let param1 := param0 + ((d 0).getLsbD 1).toNat
  let command := param1 + ((d 0).getLsbD 0).toNat
  { flags, addr0 := 1, addr1, addr2, param0, param1, command, length := command + 2, payload := command + 3,
    payloadEnd := command + 3 + (d (command + 2)).toNat }

/-- The field that the end of a packet of `n` bytes falls into begins at `pos`: all fields before it fit, it does not
(44_parse.md R132). The payload is not among these fields. -/
def CutAt (l : PacketLayout) (n pos : Nat) : Prop :=
  (pos = 0 ∧ n < 1) ∨
  (1 ≤ n ∧
    ((pos = l.addr0 ∧ l.addr0 ≤ n ∧ n < l.addr1) ∨ (pos = l.addr1 ∧ l.addr1 ≤ n ∧ n < l.addr2) ∨
      (pos = l.addr2 ∧ l.addr2 ≤ n ∧ n < l.param0) ∨ (pos = l.param0 ∧ l.param0 ≤ n ∧ n < l.param1) ∨
      (pos = l.param1 ∧ l.param1 ≤ n ∧ n < l.command) ∨ (pos = l.command ∧ l.command ≤ n ∧ n < l.length) ∨
      (pos = l.length ∧ l.length ≤ n ∧ n < l.payload)))

/-- The value of a 3-byte address field (30_encoding.md R86, R88). -/
def addressValue (fa : FieldAssembly) (d : Nat → Byte) (p : Nat) : Nat :=
  match fa with
  | .successive => (d p).toNat * 65536 + (d (p + 1)).toNat * 256 + (d (p + 2)).toNat
  | .repeatFirst => (d p).toNat * 0x010101

/-- The value of the 2-byte command field (30_encoding.md R87, R88). -/
def commandValue (fa : FieldAssembly) (d : Nat → Byte) (p : Nat) : Nat :=
  match fa with
  | .successive => (d p).toNat * 256 + (d (p + 1)).toNat
  | .repeatFirst => (d p).toNat * 0x0101

/-- The group that a successful parse leaves that stores `stored` payload bytes and consumes `used` bytes: every field has the
value that the layout gives it, an absent field 0 (44_parse.md R133 to R142). -/
structure ParsedGroup (p : Params) (d : Nat → Byte) (stored used : Nat) (k : PacketGroup) : Prop where
  valid : k.pktValid = true
  header : k.header = d 0
  flags : k.flags = (packetLayout p d).flags
  addr0 : k.addr0.toNat =
    if k.flags.getLsbD 0 then addressValue p.fieldAssembly d (packetLayout p d).addr0 else 0
  addr1 : k.addr1.toNat =
    if k.flags.getLsbD 1 then addressValue p.fieldAssembly d (packetLayout p d).addr1 else 0
  addr2 : k.addr2.toNat =
    if k.flags.getLsbD 2 then addressValue p.fieldAssembly d (packetLayout p d).addr2 else 0
  param0 : k.param0 = if (d 0).getLsbD 1 then d (packetLayout p d).param0 else 0
  param1 : k.param1 = if (d 0).getLsbD 0 then d (packetLayout p d).param1 else 0
  pcmd : k.pcmd.toNat = commandValue p.fieldAssembly d (packetLayout p d).command
  len : k.len = d (packetLayout p d).length
  plen : k.plen.toNat = stored
  csum : k.csum = 0
  pcons : k.pcons.toNat = used
  payload : ∀ i, i < 255 → k.payload.toList.getD i 0 = if i < stored then d ((packetLayout p d).payload + i) else 0

/-- The field values of a packet to be sent (44_parse.md R145). An address or parameter whose gate is closed is not sent. -/
structure PacketValues where
  header : Byte
  addr0 : PacketAddr
  addr1 : PacketAddr
  addr2 : PacketAddr
  param0 : Byte
  param1 : Byte
  pcmd : Half
  payload : Bytes

/-- The flags of the packet's header (30_encoding.md R83). -/
def PacketValues.flags (v : PacketValues) (hf : Vector Byte 16) : Byte :=
  hf.toList.getD (v.header.toNat / 4 % 16) 0

/-- The bytes of an address, most significant first (30_encoding.md R86). -/
def addressBytes (a : PacketAddr) : Bytes :=
  [BitVec.ofNat 8 (a.toNat / 65536), BitVec.ofNat 8 (a.toNat / 256), BitVec.ofNat 8 a.toNat]

/-- The packet without its checksum byte, laid out as 30_encoding.md R83 says. -/
def PacketValues.body (v : PacketValues) (hf : Vector Byte 16) : Bytes :=
  [v.header] ++ (if (v.flags hf).getLsbD 0 then addressBytes v.addr0 else []) ++
    (if (v.flags hf).getLsbD 1 then addressBytes v.addr1 else []) ++
    (if (v.flags hf).getLsbD 2 then addressBytes v.addr2 else []) ++
    (if v.header.getLsbD 1 then [v.param0] else []) ++ (if v.header.getLsbD 0 then [v.param1] else []) ++
    [BitVec.ofNat 8 (v.pcmd.toNat / 256), BitVec.ofNat 8 v.pcmd.toNat, BitVec.ofNat 8 v.payload.length] ++ v.payload

/-- A well-formed packet: its body and the checksum byte that makes the sum of all its bytes 0 modulo 256 (30_encoding.md
R90). -/
def PacketValues.bytes (v : PacketValues) (hf : Vector Byte 16) : Bytes :=
  v.body hf ++ [BitVec.ofNat 8 (256 - ((v.body hf).map BitVec.toNat).sum % 256)]

/-- The packet-result group that shows these values (44_parse.md R142, R145). -/
def PacketValues.group (v : PacketValues) (hf : Vector Byte 16) : PacketGroup where
  pktValid := true
  header := v.header
  flags := v.flags hf
  addr0 := if (v.flags hf).getLsbD 0 then v.addr0 else 0
  addr1 := if (v.flags hf).getLsbD 1 then v.addr1 else 0
  addr2 := if (v.flags hf).getLsbD 2 then v.addr2 else 0
  param0 := if v.header.getLsbD 1 then v.param0 else 0
  param1 := if v.header.getLsbD 0 then v.param1 else 0
  pcmd := v.pcmd
  len := BitVec.ofNat 8 v.payload.length
  plen := BitVec.ofNat 8 v.payload.length
  csum := 0
  pcons := BitVec.ofNat 16 (v.body hf).length
  payload := padTo 255 v.payload

/-- The two symbols of a byte, high nibble first (30_encoding.md R80). -/
def symbolsOf (mt : Vector Byte 16) (b : Byte) : Bytes :=
  [mt.toList.getD (b.toNat / 16) 0, mt.toList.getD (b.toNat % 16) 0]

/-- A framed byte: start bit 0, the data bits from bit 0 up, stop bit 1 (30_encoding.md R74, R76). -/
def framed (b : Byte) : Bits := false :: (List.range 8).map b.getLsbD ++ [true]

/-- The framed bytes of a frame with the symbols `symbols` (30_encoding.md R79): sync word, symbols, stop byte. -/
def frameBits (symbols : Bytes) : Bits :=
  ([0xFF, 0x00, 0x33, 0x55, 0x53] ++ symbols ++ [0x35]).flatMap framed

/-- A preamble that aligns: its bits alternate, and its last bit, if it has one, is 1 (41_sync.md R112). -/
def IsPreamble (pre : Bits) : Prop :=
  (∀ k, 1 ≤ k → k < pre.length → pre.getD k false ≠ pre.getD (k - 1) false) ∧
    (pre ≠ [] → pre.getLast? = some true)

/-- What two steps of a command make of a state: its issue and, where it is accepted, its completion (40_command_cycle.md R102,
R104). The state itself where a step does not answer a next state. -/
def issueAndComplete (c : Cmd) (s : State) : State :=
  match exec c.instr s with
  | .next t =>
    if t.busy then
      match exec c.instr t with
      | .next u => u
      | _ => s
    else t
  | _ => s

end Sys2Proof.Machine
end

