-- ==== Sys2Proof/Certificates/Slice0/Obligations.lean ====
section
/-! DEFINITION. The statements for the provers. Each docstring names the rule of spec/ it formalises; where the rule is one that
the spec itself marks "[derived: ...]", or where a choice of the model enters, the docstring says so. -/

open Sys2Proof Sys2Proof.Machine

/-! ## Encoding -/

/-- Decoding the bytes of a command gives the command back and leaves the bytes after it; every command is one byte
(30_encoding.md R70, R71). -/
def Obligations.DecodeOfEncodeGivesTheCommand : Prop :=
  ∀ (i : Instr) (rest : Bytes), i.wf = true → (encode i).length = 1 ∧ decode (encode i ++ rest) = .ok (i, rest)

/-- What decodes is the encoding of the command it decodes to (30_encoding.md R70, R71). -/
def Obligations.DecodedBytesAreTheEncoding : Prop :=
  ∀ (bytes : Bytes) (i : Instr) (rest : Bytes), decode bytes = .ok (i, rest) → bytes = encode i ++ rest

/-- The seven rows of the opcode map (30_encoding.md R71). -/
def Obligations.OpcodeMapRowsDecode : Prop :=
  decode [0x00] = .ok (.nop, []) ∧ decode [0x01] = .ok (.decode, []) ∧ decode [0x02] = .ok (.sync, []) ∧
    decode [0x03] = .ok (.extract, []) ∧ decode [0x04] = .ok (.mdecode, []) ∧ decode [0x05] = .ok (.parse, []) ∧
    decode [0x0F] = .ok (.clear, [])

/-- The illegal opcodes are 0x06 to 0x0E and 0x10 to 0xFF; one written to OP while BUSY = 0 sets CODE = ILLEGAL_CMD
and DONE = 1 and changes no other state, so STATUS reads 0x17 and irq = IRQ_EN; NOP is accepted and changes nothing; an illegal
opcode written while BUSY = 1 is ignored (46_control.md R153; 30_encoding.md R72, whose count of these opcodes is not stated here,
log 16). -/
def Obligations.IllegalOpcodesAreRejectedAtOnce : Prop :=
  (∀ v : Byte, decode [v] = .error (.illegalOpcode v) ↔ (0x06 ≤ v.toNat ∧ v.toNat ≤ 0x0E) ∨ 0x10 ≤ v.toNat) ∧
  (∀ (s : State) (v : Byte) (es : List Event), s.order = .write 0x0000 v :: es →
    ((0x06 ≤ v.toNat ∧ v.toNat ≤ 0x0E) ∨ 0x10 ≤ v.toNat) →
    (s.pending = none → ∃ t, step s = .next t ∧
      t = { s with order := es, code := .illegalCmd, done := true } ∧ t.status = 0x17 ∧ t.irq = s.irqEn) ∧
    (s.pending ≠ none → step s = .next { s with order := es })) ∧
  (∀ (s : State) (es : List Event), s.order = .write 0x0000 0x00 :: es → s.pending = none →
    step s = .next { s with order := es })

/-! ## The step runs the decoded command -/

/-- A write to OP with no command pending runs the command its byte decodes to, on the state whose order has moved past the write
(10_state.md R21, 40_command_cycle.md R102). -/
def Obligations.StepRunsTheDecodedCommand : Prop :=
  ∀ (s : State) (v : Byte) (es : List Event) (i : Instr) (rest : Bytes),
    s.order = .write 0x0000 v :: es → s.pending = none → decode [v] = .ok (i, rest) → i.wf = true →
    step s = exec i { s with order := es }

/-- The ENGINE's step runs the pending command: where the order has the ENGINE next, and where the order is used up
(40_command_cycle.md R104, 70_reset_and_hazards.md R183). The form of the order is the model's choice, log 2. -/
def Obligations.EngineStepRunsThePendingCommand : Prop :=
  ∀ (s : State) (c : Cmd), s.pending = some c →
    (s.order = [] → step s = exec c.instr s) ∧
    (∀ es, s.order = .engine :: es → step s = exec c.instr { s with order := es })

/-- The placed word is the command the next step runs (log 6, a choice of the model): the host's write of it to OP. -/
def Obligations.PlacedWordRunsNext : Prop :=
  ∀ (s : State) (nbits w : Nat) (i : Instr), decodeTableWord nbits w = some i →
    step (s.withFetchWord nbits w) = exec i { s with pending := none }

/-! ## Reset and the whole machine -/

/-- The reset state (70_reset_and_hazards.md R175): every register 0, PENDING = NONE, the views and irq 0. -/
def Obligations.ResetStateIsAllZero : Prop :=
  State.reset.irqEn = false ∧ State.reset.code = .ok ∧ State.reset.done = false ∧ State.reset.pending = none ∧
    State.reset.inLen = 0 ∧ State.reset.flen = 0 ∧ State.reset.tlen = 0 ∧ State.reset.dlen = 0 ∧
    State.reset.preRun = 0 ∧ State.reset.pkt = PacketGroup.zero ∧ State.reset.irq = false ∧
    (∀ a : Addr, a.toNat < 0x1000 → State.reset.busRead a = 0)

/-- Reset at any time, a command pending or not, is one step that makes the whole state of CORE the reset state; the pending
command is abandoned (70_reset_and_hazards.md R174, 40_command_cycle.md R106). That how CORE was built, what the host does next
and what it has read stay, and that the buffers get a new draw, is the model's choice (log 3, log 13). -/
def Obligations.ResetAbandonsEverything : Prop :=
  ∀ (s : State) (es : List Event), s.order = .reset :: es →
    step s = .next
      { State.reset with params := s.params, epoch := s.epoch + 1, order := es, reads := s.reads }

/-- Every step answers a next state: no error traps or stops CORE (60_exceptions.md R164, R165, 40_command_cycle.md R107). -/
def Obligations.EveryStepAnswersANextState : Prop := ∀ s : State, ∃ t, step s = .next t

/-- A good state stays good, whatever step is taken: the memory keeps its canonical form and lies in the buffer windows, DONE = 0
while a command is pending, a pending command has passed the length check, and the packet-result group holds one whole packet or
none (20_memory.md R64, 40_command_cycle.md R103, 44_parse.md R142; 10_state.md section 7). -/
def Obligations.EveryStepKeepsTheStateGood : Prop :=
  ∀ s t : State, s.Good → step s = .next t → t.Good

/-- The reset state is good. -/
def Obligations.ResetStateIsGood : Prop := State.reset.Good

/-- No step writes the parameters, whatever it is (00_scope.md R8, R9: the tables are fixed at build time). -/
def Obligations.NoStepWritesTheParameters : Prop := ∀ s t : State, step s = .next t → t.params = s.params

/-- Every execution ends: within the steps that the order has left, CORE has taken every event and is idle. That a pending
command completes is not said: a reset in the order abandons it (40_command_cycle.md R106, R107, 70_reset_and_hazards.md R183).
The measure is the model's (log 2, log 8). -/
def Obligations.EveryExecutionEndsIdle : Prop :=
  ∀ s : State, ∃ t, Host.Core.run Sys2Proof.core (stepsLeft s.order) s = .next t ∧ t.order = [] ∧ t.pending = none

/-- With no command pending CORE is idle and stays so until a host write or a reset: any other step changes nothing but the
order and what the host has read, and with the order used up nothing at all (60_exceptions.md R173; the order and what has been
read are the model's own fields, log 2, log 4). -/
def Obligations.IdleCoreKeepsItsState : Prop :=
  ∀ s : State, s.pending = none →
    ((∀ a v es, s.order ≠ .write a v :: es) → (∀ es, s.order ≠ .reset :: es) →
      ∃ t, step s = .next t ∧ t = { s with order := t.order, reads := t.reads }) ∧
    (s.order = [] → step s = .next s)

/-! ## Issue -/

/-- Accepting a command: BUSY becomes 1, DONE 0, and nothing else changes, CODE included, where the input length is within the
capacity of the input buffer (40_command_cycle.md R102, R96). -/
def Obligations.IssueAcceptsWithinCapacity : Prop :=
  ∀ s : State, s.pending = none →
    (s.inLen.toNat ≤ s.params.maxBits → exec .decode s = .next { s with pending := some .decode, done := false }) ∧
    (s.inLen.toNat ≤ s.params.maxBits → exec .sync s = .next { s with pending := some .sync, done := false }) ∧
    (s.flen.toNat ≤ 1024 → exec .extract s = .next { s with pending := some .extract, done := false }) ∧
    (s.tlen.toNat ≤ 1024 → exec .mdecode s = .next { s with pending := some .mdecode, done := false }) ∧
    (s.dlen.toNat ≤ 1024 → exec .parse s = .next { s with pending := some .parse, done := false })

/-- A command whose input length exceeds its capacity is rejected: CODE = BAD_LENGTH, DONE = 1 and nothing else; it never enters
PENDING (40_command_cycle.md R103). -/
def Obligations.IssueRejectsBadLength : Prop :=
  (∀ s : State, s.pending = none →
    (s.params.maxBits < s.inLen.toNat → exec .decode s = .next { s with code := .badLength, done := true }) ∧
    (s.params.maxBits < s.inLen.toNat → exec .sync s = .next { s with code := .badLength, done := true }) ∧
    (1024 < s.flen.toNat → exec .extract s = .next { s with code := .badLength, done := true }) ∧
    (1024 < s.tlen.toNat → exec .mdecode s = .next { s with code := .badLength, done := true }) ∧
    (1024 < s.dlen.toNat → exec .parse s = .next { s with code := .badLength, done := true })) ∧
  Code.badLength.bits = 8

/-- A host write of `v` to OP, every case: while a command is pending it has no effect; else NOP changes nothing, CLEAR clears, an
illegal opcode is rejected, and a pending command is rejected with BAD_LENGTH above its capacity and accepted within it
(40_command_cycle.md R102, with the columns of R96). -/
def Obligations.OpWriteIssuesTheCommand : Prop :=
  ∀ (s : State) (v : Byte) (es : List Event), s.order = .write 0x0000 v :: es →
    (s.pending ≠ none → step s = .next { s with order := es }) ∧
    (s.pending = none →
      (v = 0x00 → step s = .next { s with order := es }) ∧
      (v = 0x0F → step s = .next
        { s with order := es, code := .ok, done := false, preRun := 0, pkt := PacketGroup.zero }) ∧
      (v ∉ [(0x00 : Byte), 0x01, 0x02, 0x03, 0x04, 0x05, 0x0F] →
        step s = .next { s with order := es, code := .illegalCmd, done := true }) ∧
      (∀ (c : Cmd) (length limit : Nat),
        (v, c, length, limit) ∈ ([(0x01, .decode, s.inLen.toNat, s.params.maxBits),
          (0x02, .sync, s.inLen.toNat, s.params.maxBits), (0x03, .extract, s.flen.toNat, 1024),
          (0x04, .mdecode, s.tlen.toNat, 1024), (0x05, .parse, s.dlen.toNat, 1024)] : List (Byte × Cmd × Nat × Nat)) →
        step s = .next
          (if limit < length then { s with order := es, code := .badLength, done := true }
          else { s with order := es, pending := some c, done := false })))

/-! ## The commands complete -/

/-- NOP, the byte 0x00 at OP, changes nothing, whether a command is pending or not: CODE, DONE, BUSY and irq keep their values
(46_control.md R151). -/
def Obligations.NopChangesNothing : Prop :=
  ∀ s : State, exec .nop s = .next s ∧
    ∀ es, s.order = .write 0x0000 0x00 :: es → step s = .next { s with order := es }

/-- CLEAR, the byte 0x0F at OP: CODE = OK, DONE = 0, PRE_RUN = 0 and the packet-result group 0, so STATUS reads 0 and irq = 0;
CTRL, the lengths and the buffers stay; ignored while a command is pending (46_control.md R152). -/
def Obligations.ClearClearsStatusAndResults : Prop :=
  ∀ s : State,
    (s.pending = none → ∃ t, exec .clear s = .next t ∧
      t = { s with code := .ok, done := false, preRun := 0, pkt := PacketGroup.zero } ∧ t.irq = false ∧ t.status = 0) ∧
    (s.pending ≠ none → exec .clear s = .next s) ∧
    (∀ es, s.order = .write 0x0000 0x0F :: es → step s = exec .clear { s with order := es })

/-- `clear_packet` leaves every field of the packet-result group 0, all 255 PAYLOAD bytes included, and TYPE and PRESENT read 0
(40_command_cycle.md R98). -/
def Obligations.ClearedPacketGroupIsZero : Prop :=
  ∀ s : State, ∃ k, (clearPacket s).pkt = k ∧ clearPacket s = { s with pkt := k } ∧
    k.pktValid = false ∧ k.header = 0 ∧ k.flags = 0 ∧ k.addr0 = 0 ∧ k.addr1 = 0 ∧ k.addr2 = 0 ∧ k.param0 = 0 ∧
    k.param1 = 0 ∧ k.pcmd = 0 ∧ k.len = 0 ∧ k.plen = 0 ∧ k.csum = 0 ∧ k.pcons = 0 ∧
    (∀ i, k.payloadByte i = 0) ∧ k.typeByte = 0 ∧ k.present = 0

/-- The completion step of SYNC. With `L` the run length of `IBUF[0 .. IN_LEN)`: PREAMBLE_ERROR where there is no break or
`L < 2`, then FLEN = 0 and FBUF is not written; else OK, the first `L - 2` bits discarded, FLEN the number of whole 10-bit chunks,
and bit `i` of byte `j` is data bit `i` of chunk `j`. PRE_RUN = L either way, and nothing else changes (41_sync.md R108 to R111,
R115; 30_encoding.md R75, R76). -/
def Obligations.SyncCompletes : Prop :=
  ∀ (s : State) (L : Nat), s.pending = some .sync → IsRunLength s.inLen.toNat s.ibufBit L →
    ∃ t, exec .sync s = .next t ∧
      t = { s with preRun := t.preRun, flen := t.flen, mem := t.mem, code := t.code, done := true, pending := none } ∧
      t.preRun.toNat = L ∧
      if L = s.inLen.toNat ∨ L < 2 then t.code = .preambleError ∧ t.flen = 0 ∧ t.mem = s.mem
      else
        t.code = .ok ∧ t.flen.toNat = (s.inLen.toNat - (L - 2)) / 10 ∧
        (∀ j, j < (s.inLen.toNat - (L - 2)) / 10 → ∀ i, i < 8 →
          (t.fbuf j).getLsbD i = s.ibufBit (L - 2 + 10 * j + 1 + i)) ∧
        (∀ a, a < 0x1400 ∨ 0x1400 + (s.inLen.toNat - (L - 2)) / 10 ≤ a → t.bufByte a = s.bufByte a)

/-- The run length of the model is the one 41_sync.md R108 defines: the smallest `k` with `bits[k] = bits[k-1]`, or `n`. -/
def Obligations.RunLengthIsTheFirstBreak : Prop :=
  ∀ bits : Bits, IsRunLength bits.length (fun i => bits.getD i false) (runLen bits) ∧
    ∀ L, IsRunLength bits.length (fun i => bits.getD i false) L → L = runLen bits

/-- SYNC's output fits FBUF: an accepted SYNC of a CORE within the limits of R7 leaves FLEN at most 819. The bound is the spec's
own inference (41_sync.md R113, marked derived there). -/
def Obligations.SyncOutputFitsItsBuffer : Prop :=
  ∀ s t : State, s.params.capacityOk = true → s.inLen.toNat ≤ s.params.maxBits → s.pending = some .sync →
    exec .sync s = .next t → t.flen.toNat ≤ 819 ∧ t.flen.toNat ≤ s.inLen.toNat / 10

/-- The completion step of EXTRACT: SYNC_ERROR where the first five bytes are not the sync word or there are fewer than five;
EOP_ERROR where the sync word is there and no 0x35 follows; else OK, and TBUF holds the bytes between the sync word and the first
0x35. On an error TLEN = 0 and TBUF is not written; nothing else changes (42_extract.md R116 to R119, R121). -/
def Obligations.ExtractCompletes : Prop :=
  ∀ s : State, s.pending = some .extract →
    ∃ t, exec .extract s = .next t ∧
      t = { s with tlen := t.tlen, mem := t.mem, code := t.code, done := true, pending := none } ∧
      (¬SyncWordMatches s.flen.toNat s.fbuf → t.code = .syncError ∧ t.tlen = 0 ∧ t.mem = s.mem) ∧
      (SyncWordMatches s.flen.toNat s.fbuf → (∀ q, 5 ≤ q → q < s.flen.toNat → s.fbuf q ≠ 0x35) →
        t.code = .eopError ∧ t.tlen = 0 ∧ t.mem = s.mem) ∧
      (∀ p, SyncWordMatches s.flen.toNat s.fbuf → IsFirstStop s.flen.toNat s.fbuf p →
        t.code = .ok ∧ t.tlen.toNat = p - 5 ∧ (∀ i, i < p - 5 → t.tbuf i = s.fbuf (5 + i)) ∧
        (∀ a, a < 0x1800 ∨ 0x1800 + (p - 5) ≤ a → t.bufByte a = s.bufByte a))

/-- Altering any one of the five sync bytes of a frame makes EXTRACT fail with SyncError. The spec's own inference
(42_extract.md R122, marked derived there). -/
def Obligations.AlteredSyncByteIsASyncError : Prop :=
  ∀ (f : Bytes) (i : Nat) (x : Byte), i < 5 → [0xFF, 0x00, 0x33, 0x55, 0x53][i]? ≠ some x →
    extractFn (f.set i x) = .errSync

/-- The completion step of MDECODE: MANCHESTER_ERROR where a symbol at a paired position is no entry of MT, then DLEN = 0 and
DBUF is not written; else OK, and byte `j` of DBUF has the nibble of symbol `2j` high and that of symbol `2j+1` low. An odd last
symbol is not looked at. Nothing else changes (43_manchester.md R123 to R127, R128). -/
def Obligations.MdecodeCompletes : Prop :=
  ∀ s : State, s.pending = some .mdecode →
    ∃ t, exec .mdecode s = .next t ∧
      t = { s with dlen := t.dlen, mem := t.mem, code := t.code, done := true, pending := none } ∧
      ((∃ i, i < 2 * (s.tlen.toNat / 2) ∧ s.tbuf i ∉ s.params.mt.toList) →
        t.code = .manchesterError ∧ t.dlen = 0 ∧ t.mem = s.mem) ∧
      (∀ nibble : Nat → Nat,
        (∀ i, i < 2 * (s.tlen.toNat / 2) → IsNibble s.params.mt (s.tbuf i) (nibble i)) →
        t.code = .ok ∧ t.dlen.toNat = s.tlen.toNat / 2 ∧
        (∀ j, j < s.tlen.toNat / 2 → (t.dbuf j).toNat = nibble (2 * j) * 16 + nibble (2 * j + 1)) ∧
        (∀ a, a < 0x1C00 ∨ 0x1C00 + s.tlen.toNat / 2 ≤ a → t.bufByte a = s.bufByte a))

/-- Every byte survives being sent as its two symbols and decoded, for a table of distinct entries; and a byte that is no entry
fails at either place of a pair. The spec's own inference (43_manchester.md R129, marked derived there). -/
def Obligations.ManchesterRoundTrip : Prop :=
  ∀ (p : Params) (d : Bytes), p.symbolsDistinct = true →
    mdecodeFn p.mt (d.flatMap (symbolsOf p.mt)) = .ok d ∧
    (∀ x y : Byte, x ∉ p.mt.toList →
      mdecodeFn p.mt (d.flatMap (symbolsOf p.mt) ++ [x, y]) = .err ∧
      mdecodeFn p.mt (d.flatMap (symbolsOf p.mt) ++ [y, x]) = .err)

/-- The checksum is the sum of all bytes modulo 256 (44_parse.md R130). -/
def Obligations.ChecksumIsTheSumModulo256 : Prop :=
  ∀ d : Bytes, (checksum d).toNat = (d.map BitVec.toNat).sum % 256

/-- PARSE where the sum of `DBUF[0 .. DLEN)` is not 0 modulo 256, for every length: CHECKSUM_ERROR, code 5; CSUM the sum, PCONS 0,
every other packet field 0; nothing else changes (60_exceptions.md R159; 44_parse.md R131, R142). -/
def Obligations.ParseChecksumFailure : Prop :=
  (∀ s : State, s.pending = some .parse → byteSum s.dlen.toNat s.dbuf % 256 ≠ 0 →
    exec .parse s = .next
      { s with
        code := .checksumError, done := true, pending := none
        pkt := { PacketGroup.zero with csum := BitVec.ofNat 8 (byteSum s.dlen.toNat s.dbuf), pcons := 0 } }) ∧
  Code.checksumError.bits = 5

/-- PARSE of a packet whose sum is 0 and whose fields and payload all fit: OK, and each field of the packet-result group has the
value its place in the layout gives it, in both settings of FIELD_ASSEMBLY; nothing else changes (44_parse.md R133 to R140, R142;
30_encoding.md R83 to R89). -/
def Obligations.ParseCompletes : Prop :=
  ∀ s : State, s.pending = some .parse → byteSum s.dlen.toNat s.dbuf % 256 = 0 → 1 ≤ s.dlen.toNat →
    (packetLayout s.params s.dbuf).payloadEnd ≤ s.dlen.toNat →
    ∃ t, exec .parse s = .next t ∧
      t = { s with code := .ok, done := true, pending := none, pkt := t.pkt } ∧
      ParsedGroup s.params s.dbuf (s.dbuf (packetLayout s.params s.dbuf).length).toNat
        (packetLayout s.params s.dbuf).payloadEnd t.pkt

/-- PARSE of a packet whose sum is 0 and that ends inside a field before the payload: MALFORMED, code 6; PCONS the cursor at the
field that did not fit, every other packet field 0; nothing else changes (44_parse.md R132, R142). -/
def Obligations.ParseCutFieldIsMalformed : Prop :=
  (∀ (s : State) (pos : Nat), s.pending = some .parse → byteSum s.dlen.toNat s.dbuf % 256 = 0 →
    CutAt (packetLayout s.params s.dbuf) s.dlen.toNat pos →
    exec .parse s = .next
      { s with
        code := .malformed, done := true, pending := none
        pkt := { PacketGroup.zero with pcons := BitVec.ofNat 16 pos } }) ∧
  Code.malformed.bits = 6

/-- PARSE of a packet whose sum is 0 and that has fewer than LEN payload bytes: with PAYLOAD_SHORTFALL = MALFORMED it fails with
MALFORMED and PCONS at the payload; with TRUNCATE it succeeds with the bytes there are (44_parse.md R139). -/
def Obligations.ParseShortPayload : Prop :=
  ∀ s : State, s.pending = some .parse → byteSum s.dlen.toNat s.dbuf % 256 = 0 → 1 ≤ s.dlen.toNat →
    (packetLayout s.params s.dbuf).payload ≤ s.dlen.toNat →
    s.dlen.toNat < (packetLayout s.params s.dbuf).payloadEnd →
    (s.params.payloadShortfall = .malformed →
      exec .parse s = .next
        { s with
          code := .malformed, done := true, pending := none
          pkt := { PacketGroup.zero with pcons := BitVec.ofNat 16 (packetLayout s.params s.dbuf).payload } }) ∧
    (s.params.payloadShortfall = .truncate →
      ∃ t, exec .parse s = .next t ∧
        t = { s with code := .ok, done := true, pending := none, pkt := t.pkt } ∧
        ParsedGroup s.params s.dbuf (s.dlen.toNat - (packetLayout s.params s.dbuf).payload) s.dlen.toNat t.pkt)

/-- A well-formed packet parses to exactly its values, with FIELD_ASSEMBLY = SUCCESSIVE, for every table HF. The spec's own
inference (44_parse.md R145, marked derived there). -/
def Obligations.WellFormedPacketRoundTrip : Prop :=
  ∀ (s : State) (v : PacketValues), s.pending = some .parse → s.params.fieldAssembly = .successive →
    v.payload.length ≤ 255 → s.inputPacket = v.bytes s.params.hf →
    exec .parse s = .next
      { s with code := .ok, done := true, pending := none, pkt := v.group s.params.hf }

/-- DECODE completes: the stages run in order on each other's outputs, each output is also stored in its buffer, the first stage
that fails gives the code and its failure writes, and no later stage runs (45_decode.md R147, and the operation of R146). Every
register that DECODE does not write stays, and every buffer byte outside the three prefixes reads as before. -/
def Obligations.DecodeCompletes : Prop :=
  ∀ s : State, s.pending = some .decode →
    ∃ t, exec .decode s = .next t ∧
      t = { s with
        preRun := t.preRun, flen := t.flen, tlen := t.tlen, dlen := t.dlen, mem := t.mem, pkt := t.pkt, code := t.code
        done := true, pending := none } ∧
      (∀ a, (a < 0x1400 ∨ 0x1400 + t.flen.toNat ≤ a) → (a < 0x1800 ∨ 0x1800 + t.tlen.toNat ≤ a) →
        (a < 0x1C00 ∨ 0x1C00 + t.dlen.toNat ≤ a) → t.bufByte a = s.bufByte a) ∧
      (∃ u, u = { s with pkt := PacketGroup.zero } ∧
        match syncFn s.inputBits with
        | .err run => t = finish .preambleError (writeSync (.err run) u)
        | .ok f run =>
          match extractFn f with
          | .errSync => t = finish .syncError (writeExtract .errSync (writeSync (.ok f run) u))
          | .errEop => t = finish .eopError (writeExtract .errEop (writeSync (.ok f run) u))
          | .ok symbols =>
            match mdecodeFn s.params.mt symbols with
            | .err =>
              t = finish .manchesterError (writeMdecode .err (writeExtract (.ok symbols) (writeSync (.ok f run) u)))
            | .ok d =>
              t = finish (parseCode (parseFn s.params d)) (writeParse (parseFn s.params d)
                (writeMdecode (.ok d) (writeExtract (.ok symbols) (writeSync (.ok f run) u)))))

/-- DECODE is the stage commands in a row: from an idle state it writes the same buffers, lengths, PRE_RUN and CODE as SYNC, then
EXTRACT, MDECODE and PARSE, each issued where the one before ended OK and awaited; the packet-result group is the same where PARSE
was reached, and else DECODE has cleared it and the row of stages has left it. The spec's own inference (45_decode.md R148, marked
derived there). -/
def Obligations.DecodeEqualsTheStagesInARow : Prop :=
  ∀ s s1 s2 s3 s4 t : State, s.params.capacityOk = true → s.pending = none → s.inLen.toNat ≤ s.params.maxBits →
    s1 = issueAndComplete .sync s →
    s2 = (if s1.code = .ok then issueAndComplete .extract s1 else s1) →
    s3 = (if s2.code = .ok then issueAndComplete .mdecode s2 else s2) →
    s4 = (if s3.code = .ok then issueAndComplete .parse s3 else s3) →
    t = issueAndComplete .decode s →
    t = { s4 with pkt := if s3.code = .ok then s4.pkt else PacketGroup.zero } ∧
    (s3.code ≠ .ok → s4.pkt = s.pkt)

/-- DECODE depends on nothing but its input: two states with the same parameters, IN_LEN and `IBUF[0 .. IN_LEN)` end with the same
CODE, PRE_RUN, FLEN, packet-result group and FBUF prefix, and the same TLEN, DLEN and prefixes where those stages were reached.
The spec's own inference (10_state.md R50, 45_decode.md R149, marked derived there). -/
def Obligations.DecodeDependsOnItsInputOnly : Prop :=
  ∀ s s' t t' : State, s.pending = some .decode → s'.pending = some .decode → s.params = s'.params →
    s.inLen = s'.inLen → (∀ i, i < s.inLen.toNat → s.ibufBit i = s'.ibufBit i) →
    exec .decode s = .next t → exec .decode s' = .next t' →
    t.code = t'.code ∧ t.preRun = t'.preRun ∧ t.pkt = t'.pkt ∧ t.flen = t'.flen ∧
    (∀ j, j < t.flen.toNat → t.fbuf j = t'.fbuf j) ∧
    (t.code ≠ .preambleError → t.tlen = t'.tlen ∧ ∀ j, j < t.tlen.toNat → t.tbuf j = t'.tbuf j) ∧
    (t.code ≠ .preambleError → t.code ≠ .syncError → t.code ≠ .eopError →
      t.dlen = t'.dlen ∧ ∀ j, j < t.dlen.toNat → t.dbuf j = t'.dbuf j)

/-- DECODE again on the same input gives the same state. The spec's own inference (45_decode.md R149, marked derived there). -/
def Obligations.DecodeTwiceGivesTheSameState : Prop :=
  ∀ s t : State, s.pending = some .decode → s.inLen.toNat ≤ 8192 → exec .decode s = .next t →
    exec .decode { t with pending := some .decode, done := false } = .next t

/-- A preamble that ends in 1, followed by the framed sync byte FF and anything, has the run length `len(P) + 2`, so the realigned
stream begins at the sync byte. The spec's own inference (41_sync.md R112, marked derived there). -/
def Obligations.PreambleAlignsTheFrame : Prop :=
  ∀ pre rest : Bits, IsPreamble pre → runLen (pre ++ framed 0xFF ++ rest) = pre.length + 2

/-- A well-formed frame decodes: preamble, sync word, Manchester symbols of a well-formed packet, stop byte, and anything after
it, give CODE = OK and the packet's values, for every MT of distinct entries and every HF, with FIELD_ASSEMBLY = SUCCESSIVE,
where no symbol of the frame is the stop byte. The spec's own inference (45_decode.md R150, marked derived there). -/
def Obligations.WellFormedFrameDecodes : Prop :=
  ∀ (s : State) (v : PacketValues) (pre junk : Bits), s.pending = some .decode →
    s.params.fieldAssembly = .successive → s.params.symbolsDistinct = true →
    0x35 ∉ (v.bytes s.params.hf).flatMap (symbolsOf s.params.mt) →
    v.payload.length ≤ 255 → IsPreamble pre →
    s.inputBits = pre ++ frameBits ((v.bytes s.params.hf).flatMap (symbolsOf s.params.mt)) ++ junk →
    ∃ t, exec .decode s = .next t ∧ t.code = .ok ∧ t.done = true ∧ t.pending = none ∧
      t.pkt = v.group s.params.hf ∧ t.preRun.toNat = pre.length + 2 ∧
      t.inputPacket = v.bytes s.params.hf

/-- Field gating: whenever the parser succeeds, the bytes it consumes before the command are the header, 3 for each address bit
of the flags and 1 for each parameter bit of the header, for every table HF. The spec's own inference (44_parse.md R143, marked
derived there). -/
def Obligations.GatedFieldsAreCounted : Prop :=
  ∀ (p : Params) (d : Bytes) (pk : PacketFields) (pos : Nat), parseFields p d = .ok (pk, pos) →
    pos = 1 + 3 * ((pk.flags.getLsbD 0).toNat + (pk.flags.getLsbD 1).toNat + (pk.flags.getLsbD 2).toNat) +
      ((pk.header.getLsbD 1).toNat + (pk.header.getLsbD 0).toNat) + 2 + 1 + pk.payload.length ∧
    pos ≤ d.length ∧ pk.payload.length ≤ pk.len.toNat

/-- `finish`: the ENGINE's step ends every pending command, with a code of 0 to 6, DONE = 1, PENDING = NONE, and irq = IRQ_EN
(40_command_cycle.md R97, R104; 60_exceptions.md R164). -/
def Obligations.EngineStepFinishesEveryCommand : Prop :=
  ∀ (s : State) (c : Cmd), s.pending = some c →
    ∃ t, exec c.instr s = .next t ∧ t.done = true ∧ t.pending = none ∧ t.irq = s.irqEn ∧ t.code.bits.toNat ≤ 6

/-- No command writes CTRL, IN_LEN or IBUF, nor the parameters, the draw, the order or what the host has read; and a command writes
no register and no buffer that its row of 40_command_cycle.md R96 does not list: SYNC no TLEN, DLEN, TBUF, DBUF and no packet
field; EXTRACT no FLEN, DLEN, PRE_RUN, FBUF, DBUF and no packet field; MDECODE no FLEN, TLEN, PRE_RUN, FBUF, TBUF and no packet
field; PARSE no length, no PRE_RUN and no buffer; NOP and CLEAR no length and no buffer. That an output buffer is not overrun is
said of good states: log 9 has the others. -/
def Obligations.CommandsKeepTheirInputs : Prop :=
  ∀ (i : Instr) (s t : State), exec i s = .next t →
    t.irqEn = s.irqEn ∧ t.inLen = s.inLen ∧ t.params = s.params ∧ t.epoch = s.epoch ∧ t.order = s.order ∧
    t.reads = s.reads ∧ (∀ a, a < 0x1400 → t.bufByte a = s.bufByte a) ∧
    (i = .sync → t.tlen = s.tlen ∧ t.dlen = s.dlen ∧ t.pkt = s.pkt) ∧
    (i = .extract → t.flen = s.flen ∧ t.dlen = s.dlen ∧ t.preRun = s.preRun ∧ t.pkt = s.pkt ∧
      ∀ a, a < 0x1800 → t.bufByte a = s.bufByte a) ∧
    (i = .mdecode → t.tlen = s.tlen ∧ t.flen = s.flen ∧ t.preRun = s.preRun ∧ t.pkt = s.pkt ∧
      ∀ a, a < 0x1C00 → t.bufByte a = s.bufByte a) ∧
    (i = .parse → t.preRun = s.preRun) ∧
    (i = .parse ∨ i = .clear ∨ i = .nop → t.flen = s.flen ∧ t.tlen = s.tlen ∧ t.dlen = s.dlen ∧ t.mem = s.mem) ∧
    (s.Good →
      (i = .sync → ∀ a, 0x1800 ≤ a → t.bufByte a = s.bufByte a) ∧
      (i = .extract → ∀ a, 0x1C00 ≤ a → t.bufByte a = s.bufByte a) ∧
      (∀ a, 0x2000 ≤ a → t.bufByte a = s.bufByte a))

/-! ## The host's accesses -/

/-- While BUSY = 1 every host write to every address is ignored (20_memory.md R63). -/
def Obligations.BusyWritesAreIgnored : Prop :=
  ∀ (s : State) (a : Addr) (v : Byte) (es : List Event), s.order = .write a v :: es → s.pending ≠ none →
    step s = .next { s with order := es }

/-- While BUSY = 1 the host reads the committed state: every address reads as it did before the command was accepted, but for
STATUS, which shows BUSY = 1, DONE = 0 and CODE unchanged (20_memory.md R64). -/
def Obligations.BusyReadsShowTheCommittedState : Prop :=
  ∀ (c : Cmd) (s t : State), s.pending = none → exec c.instr s = .next t → t.pending ≠ none →
    (∀ a : Addr, a ≠ 0x0002 → t.busRead a = s.busRead a) ∧
    t.busRead 0x0002 = s.code.bits.setWidth 8 ||| 0x20

/-- No read has a side effect: the step gives the host the byte and changes nothing of CORE; a second read of the same address
gives the same byte (20_memory.md R60). -/
def Obligations.ReadsHaveNoSideEffect : Prop :=
  ∀ (s : State) (a : Addr) (es : List Event), s.order = .read a :: es →
    ∃ t, step s = .next t ∧ t = { s with order := es, reads := (a, s.busRead a) :: s.reads } ∧
      ∀ b, t.busRead b = s.busRead b

/-- A write to one byte of a length register replaces those 8 bits and keeps the other 8 (20_memory.md R56). -/
def Obligations.LengthBytesAreWrittenApart : Prop :=
  ∀ (s : State) (v : Byte) (es : List Event), s.pending = none →
    (s.order = .write 0x0004 v :: es → ∃ x, step s = .next { s with order := es, inLen := x } ∧
      x.toNat = v.toNat * 256 + s.inLen.toNat % 256) ∧
    (s.order = .write 0x0005 v :: es → ∃ x, step s = .next { s with order := es, inLen := x } ∧
      x.toNat = s.inLen.toNat / 256 * 256 + v.toNat) ∧
    (s.order = .write 0x0006 v :: es → ∃ x, step s = .next { s with order := es, flen := x } ∧
      x.toNat = v.toNat * 256 + s.flen.toNat % 256) ∧
    (s.order = .write 0x0007 v :: es → ∃ x, step s = .next { s with order := es, flen := x } ∧
      x.toNat = s.flen.toNat / 256 * 256 + v.toNat) ∧
    (s.order = .write 0x0008 v :: es → ∃ x, step s = .next { s with order := es, tlen := x } ∧
      x.toNat = v.toNat * 256 + s.tlen.toNat % 256) ∧
    (s.order = .write 0x0009 v :: es → ∃ x, step s = .next { s with order := es, tlen := x } ∧
      x.toNat = s.tlen.toNat / 256 * 256 + v.toNat) ∧
    (s.order = .write 0x000A v :: es → ∃ x, step s = .next { s with order := es, dlen := x } ∧
      x.toNat = v.toNat * 256 + s.dlen.toNat % 256) ∧
    (s.order = .write 0x000B v :: es → ∃ x, step s = .next { s with order := es, dlen := x } ∧
      x.toNat = s.dlen.toNat / 256 * 256 + v.toNat)

/-- A write to CTRL stores bit 0 in IRQ_EN and ignores the rest, and irq follows at once; CTRL reads IRQ_EN with bits 7:1 at 0, and
0x00 after reset; no command writes it. The output irq is DONE and IRQ_EN, and 0 after reset (10_state.md R22, R49). -/
def Obligations.CtrlHoldsTheInterruptEnable : Prop :=
  (∀ (s : State) (v : Byte) (es : List Event),
    (s.busRead 0x0001).toNat = s.irqEn.toNat ∧ s.irq = (s.done && s.irqEn) ∧
    (s.order = .write 0x0001 v :: es → s.pending = none → ∃ t, step s = .next t ∧
      t = { s with order := es, irqEn := v.getLsbD 0 } ∧ t.irq = (s.done && v.getLsbD 0))) ∧
  (∀ (i : Instr) (s t : State), exec i s = .next t → t.irqEn = s.irqEn) ∧
  State.reset.busRead 0x0001 = 0x00 ∧ State.reset.irq = false

/-- A write to STATUS with bit 4 = 1 clears DONE, and with it irq; with bit 4 = 0 it changes nothing; the other bits are ignored
(10_state.md R24, 20_memory.md R61). -/
def Obligations.StatusWriteClearsDone : Prop :=
  ∀ (s : State) (v : Byte) (es : List Event), s.order = .write 0x0002 v :: es → s.pending = none →
    (v.getLsbD 4 = true → ∃ t, step s = .next t ∧ t = { s with order := es, done := false } ∧ t.irq = false) ∧
    (v.getLsbD 4 = false → step s = .next { s with order := es })

/-- STATUS reads CODE, DONE and BUSY in bits 3:0, 4 and 5, with bits 7:6 at 0; BUSY is 1 exactly while a command is pending, and 0
after reset; reading STATUS changes nothing of CORE (10_state.md R25). CODE has the values 0 to 8. -/
def Obligations.StatusByteShowsCodeDoneBusy : Prop :=
  (∀ s : State,
    (s.busRead 0x0002).toNat = s.code.bits.toNat + 16 * s.done.toNat + 32 * s.pending.isSome.toNat ∧
    s.code.bits.toNat ≤ 8 ∧
    (∀ es, s.order = .read 0x0002 :: es →
      step s = .next { s with order := es, reads := (0x0002, s.busRead 0x0002) :: s.reads })) ∧
  (State.reset.busRead 0x0002).getLsbD 5 = false

/-- TYPE shows FLAGS bits 5, 3, 4 and 6 as INFO, RQ, RP and W in bits 0 to 3, each for itself, with bits 7:4 at 0; 0x00 after reset
(10_state.md R34). -/
def Obligations.TypeShowsFourFlagBits : Prop :=
  (∀ (s : State) (i : Nat), (s.busRead 0x0012).getLsbD i =
    ((i == 0 && s.pkt.flags.getLsbD 5) || (i == 1 && s.pkt.flags.getLsbD 3) || (i == 2 && s.pkt.flags.getLsbD 4) ||
      (i == 3 && s.pkt.flags.getLsbD 6))) ∧
  State.reset.busRead 0x0012 = 0x00

/-- PRESENT shows which fields of a valid packet are there, and PKT_VALID in bit 7 (10_state.md R35). -/
def Obligations.PresentShowsTheGates : Prop :=
  ∀ (s : State) (i : Nat), (s.busRead 0x0013).getLsbD i =
    (s.pkt.pktValid && ((i == 0 && s.pkt.flags.getLsbD 0) || (i == 1 && s.pkt.flags.getLsbD 1) ||
      (i == 2 && s.pkt.flags.getLsbD 2) || (i == 3 && s.pkt.header.getLsbD 1) ||
      (i == 4 && s.pkt.header.getLsbD 0) || i == 7))

/-- Every register wider than 8 bits reads big-endian, its most significant byte at the lowest address, in every state
(20_memory.md R55); and an address is its group id above its device id (10_state.md R36). Every 8-bit result register and every
byte of PAYLOAD reads as its field, and OP reads 0x00, in every state (20_memory.md R54, 10_state.md R21, R42). What an R16 or
R24 of the host keeps is the big-endian value of the bytes at its offsets (30_encoding.md R94; where the offsets run past 0xFFFF
they wrap, a choice of the model, log 17). -/
def Obligations.ResultsReadBigEndian : Prop :=
  ∀ s : State,
    (s.busRead 0x0004).toNat * 256 + (s.busRead 0x0005).toNat = s.inLen.toNat ∧
    (s.busRead 0x0006).toNat * 256 + (s.busRead 0x0007).toNat = s.flen.toNat ∧
    (s.busRead 0x0008).toNat * 256 + (s.busRead 0x0009).toNat = s.tlen.toNat ∧
    (s.busRead 0x000A).toNat * 256 + (s.busRead 0x000B).toNat = s.dlen.toNat ∧
    (s.busRead 0x000C).toNat * 256 + (s.busRead 0x000D).toNat = s.preRun.toNat ∧
    (s.busRead 0x000E).toNat * 256 + (s.busRead 0x000F).toNat = s.pkt.pcons.toNat ∧
    (s.busRead 0x0022).toNat * 256 + (s.busRead 0x0023).toNat = s.pkt.pcmd.toNat ∧
    (s.busRead 0x0014).toNat * 65536 + (s.busRead 0x0015).toNat * 256 + (s.busRead 0x0016).toNat = s.pkt.addr0.toNat ∧
    (s.busRead 0x0018).toNat * 65536 + (s.busRead 0x0019).toNat * 256 + (s.busRead 0x001A).toNat = s.pkt.addr1.toNat ∧
    (s.busRead 0x001C).toNat * 65536 + (s.busRead 0x001D).toNat * 256 + (s.busRead 0x001E).toNat = s.pkt.addr2.toNat ∧
    (∀ a : PacketAddr, a.toNat = (groupId a).toNat * 2 ^ 18 + (deviceId a).toNat) ∧
    s.busRead 0x0000 = 0x00 ∧ s.busRead 0x0010 = s.pkt.header ∧ s.busRead 0x0011 = s.pkt.flags ∧
    s.busRead 0x0020 = s.pkt.param0 ∧ s.busRead 0x0021 = s.pkt.param1 ∧ s.busRead 0x0024 = s.pkt.len ∧
    s.busRead 0x0025 = s.pkt.plen ∧ s.busRead 0x0026 = s.pkt.csum ∧
    (∀ i, i < 255 → s.pkt.payload[i]? = some (s.busRead (BitVec.ofNat 16 (0x0100 + i)))) ∧
    (∀ off, s.order = expand (.r16 off) → ∃ t v, Host.Core.run Sys2Proof.core 2 s = .next t ∧
      HostOp.value (.r16 off) t.reads = some (.half v) ∧
      v.toNat = (s.busRead off).toNat * 256 + (s.busRead (off + 1)).toNat) ∧
    (∀ off, s.order = expand (.r24 off) → ∃ t v, Host.Core.run Sys2Proof.core 3 s = .next t ∧
      HostOp.value (.r24 off) t.reads = some (.packetAddr v) ∧
      v.toNat = (s.busRead off).toNat * 65536 + (s.busRead (off + 1)).toNat * 256 + (s.busRead (off + 2)).toNat)

/-- A reserved address reads 0 and a write to it is ignored: 0x0003, 0x0017, 0x001B, 0x001F, 0x0027, 0x0028 to 0x00FF, 0x01FF to
0x0FFF, the IBUF window above `MAX_BITS`/8, 0x2000 to 0xFFFF (20_memory.md R53, R59). -/
def Obligations.ReservedAddressesReadZero : Prop :=
  ∀ (s : State) (a : Addr),
    (a ∈ [(0x0003 : Addr), 0x0017, 0x001B, 0x001F, 0x0027] ∨ (0x0028 ≤ a.toNat ∧ a.toNat ≤ 0x00FF) ∨
      (0x01FF ≤ a.toNat ∧ a.toNat ≤ 0x0FFF) ∨ 0x2000 ≤ a.toNat ∨
      (0x1000 + s.params.maxBits / 8 ≤ a.toNat ∧ a.toNat ≤ 0x13FF)) →
    s.busRead a = 0 ∧
    ∀ (v : Byte) (es : List Event), s.order = .write a v :: es → step s = .next { s with order := es }

/-- A write to a read-only register or to PAYLOAD is ignored (20_memory.md R54). -/
def Obligations.ReadOnlyWritesAreIgnored : Prop :=
  ∀ (s : State) (a : Addr) (v : Byte) (es : List Event), s.order = .write a v :: es →
    ((0x000C ≤ a.toNat ∧ a.toNat ≤ 0x0026) ∨ (0x0100 ≤ a.toNat ∧ a.toNat ≤ 0x01FE)) →
    step s = .next { s with order := es }

/-- A write to a buffer byte with no command pending stores the byte and nothing more: that address then reads it, and every other
address of the whole space reads as before (20_memory.md R53, R61, R65). -/
def Obligations.BufferWriteThenReadGivesTheByte : Prop :=
  ∀ (s : State) (a : Addr) (v : Byte) (es : List Event), s.order = .write a v :: es → s.pending = none →
    ((0x1000 ≤ a.toNat ∧ a.toNat ≤ 0x13FF ∧ a.toNat < 0x1000 + s.params.maxBits / 8) ∨
      (0x1400 ≤ a.toNat ∧ a.toNat ≤ 0x1FFF)) →
    ∃ t, step s = .next t ∧ t = { s with order := es, mem := t.mem } ∧ t.busRead a = v ∧
      ∀ b : Addr, b ≠ a → t.busRead b = s.busRead b

/-- Bit `i` of the input bitstream is bit `7 - (i mod 8)` of the byte at 0x1000 + ⌊i/8⌋ (20_memory.md R62); and the host reads
`FBUF[j]`, `TBUF[j]` and `DBUF[j]` at 0x1400 + j, 0x1800 + j and 0x1C00 + j (10_state.md R44 to R46). -/
def Obligations.InputBitsArePackedMsbFirst : Prop :=
  (∀ (s : State) (i : Nat), s.params.capacityOk = true → i < s.params.maxBits →
    s.ibufBit i = (s.busRead (BitVec.ofNat 16 (0x1000 + i / 8))).getLsbD (7 - i % 8)) ∧
  (∀ (s : State) (j : Nat), j < 1024 →
    s.busRead (BitVec.ofNat 16 (0x1400 + j)) = s.fbuf j ∧ s.busRead (BitVec.ofNat 16 (0x1800 + j)) = s.tbuf j ∧
    s.busRead (BitVec.ofNat 16 (0x1C00 + j)) = s.dbuf j)

/-- LOADBITS puts a bitstream into IBUF: after the host's writes of the packed bytes and of IN_LEN, the input of SYNC and DECODE is
that bitstream (30_encoding.md R94, 20_memory.md R62). -/
def Obligations.LoadBitsLoadsTheBits : Prop :=
  ∀ (s : State) (bits : Bits), s.params.capacityOk = true → bits.length ≤ s.params.maxBits → s.pending = none →
    s.order = expand (.loadBits bits) →
    ∃ t, Host.Core.run Sys2Proof.core s.order.length s = .next t ∧ t.inputBits = bits ∧ t.order = [] ∧
      t = { s with order := [], inLen := t.inLen, mem := t.mem }

/-- RAW_MSG is 8 bits for each byte of FBUF, bit 7 first (10_state.md R47). What stands for `FBUF[j]` from 1024 on, where the host
has stored a larger FLEN, is the model's choice (log 18). -/
def Obligations.RawMessageIsTheFrameMsbFirst : Prop :=
  ∀ s : State, s.rawMsg.length = 8 * s.flen.toNat ∧
    ∀ j k, j < s.flen.toNat → k < 8 → s.rawMsg[8 * j + k]? = some ((s.fbuf j).getLsbD (7 - k))

/-- The WAIT loop polls STATUS: with BUSY = 0 it reads STATUS once and ends; with BUSY = 1 it reads STATUS and goes on, or the
ENGINE takes its step (30_encoding.md R94). That its polls are a draw in the order is the model's choice (log 8). -/
def Obligations.WaitPollsStatus : Prop :=
  ∀ (s : State) (n : Nat) (es : List Event), s.order = .wait n :: es →
    (s.pending = none → step s = .next { s with order := es, reads := (0x0002, s.busRead 0x0002) :: s.reads }) ∧
    (∀ k, s.pending ≠ none → n = k + 1 →
      step s = .next { s with order := .wait k :: es, reads := (0x0002, s.busRead 0x0002) :: s.reads }) ∧
    (∀ c, s.pending = some c → n = 0 → step s = exec c.instr s)
end

