-- ==== Sys2Proof/Laws/Memory.lean ====
section
/-! SUPPORT. What the buffer memory's operations do: read after write, and that they keep the canonical form. -/

namespace Sys2Proof.Machine

@[simp] theorem Memory.read?_nil (a : Nat) : Memory.read? [] a = none := rfl

/-- A read after a write to the same address gives the byte written. -/
@[simp] theorem Memory.read?_write_self (m : Memory) (a : Nat) (v : Byte) : (m.write a v).read? a = some v := by
  induction m with
  | nil => simp [Memory.write, Memory.read?]
  | cons c rest ih =>
    obtain ⟨b, w⟩ := c
    simp only [Memory.write]
    split
    · simp [Memory.read?]
    · split
      · simp [Memory.read?]
      · rename_i h1 h2
        simp [Memory.read?, h1, h2, ih]

/-- A write leaves every other address alone. -/
theorem Memory.read?_write_other (m : Memory) {a x : Nat} (v : Byte) (h : x ≠ a) :
    (m.write a v).read? x = m.read? x := by
  induction m with
  | nil => simp [Memory.write, Memory.read?, h]
  | cons c rest ih =>
    obtain ⟨b, w⟩ := c
    simp only [Memory.write]
    split
    · simp only [Memory.read?, h, if_false]
      split
      · simp [show x < b by omega]
      · rfl
    · split
      · rename_i h1 h2
        subst h2
        simp [Memory.read?, h]
      · simp [Memory.read?, ih]

/-- Writing the byte that is there already changes nothing. -/
theorem Memory.write_of_read? (m : Memory) {a : Nat} {v : Byte} (h : m.read? a = some v) : m.write a v = m := by
  induction m with
  | nil => simp at h
  | cons c rest ih =>
    obtain ⟨b, w⟩ := c
    simp only [Memory.read?] at h
    simp only [Memory.write]
    split at h
    · simp at h
    · rename_i h1
      simp only [h1, if_false]
      split at h
      · rename_i h2
        cases h
        simp [h2]
      · rename_i h2
        simp [h2, ih h]

@[simp] theorem Memory.writeBytes_nil (m : Memory) (base : Nat) : m.writeBytes base [] = m := rfl

@[simp] theorem Memory.writeBytes_cons (m : Memory) (base : Nat) (v : Byte) (rest : Bytes) :
    m.writeBytes base (v :: rest) = (m.write base v).writeBytes (base + 1) rest := rfl

/-- Writing a byte sequence leaves every address outside its range alone. -/
theorem Memory.read?_writeBytes_outside (m : Memory) (base : Nat) (bytes : Bytes) {x : Nat}
    (h : x < base ∨ base + bytes.length ≤ x) : (m.writeBytes base bytes).read? x = m.read? x := by
  induction bytes generalizing m base with
  | nil => rfl
  | cons v rest ih =>
    simp only [List.length_cons] at h
    rw [Memory.writeBytes_cons, ih _ _ (by omega), Memory.read?_write_other _ _ (by omega)]

/-- Writing a byte sequence puts its bytes at the addresses from the base on. -/
theorem Memory.read?_writeBytes_inside (m : Memory) (base : Nat) (bytes : Bytes) {j : Nat} (h : j < bytes.length) :
    (m.writeBytes base bytes).read? (base + j) = some bytes[j] := by
  induction bytes generalizing m base j with
  | nil => simp at h
  | cons v rest ih =>
    rw [Memory.writeBytes_cons]
    cases j with
    | zero => rw [Memory.read?_writeBytes_outside _ _ _ (by omega)]; simp
    | succ j =>
      have := ih (m.write base v) (base + 1) (j := j) (by simpa using h)
      rw [show base + (j + 1) = base + 1 + j by omega, this]
      simp

/-- Writing bytes that are there already changes nothing. -/
theorem Memory.writeBytes_of_read? (m : Memory) (base : Nat) (bytes : Bytes)
    (h : ∀ j (hj : j < bytes.length), m.read? (base + j) = some bytes[j]) : m.writeBytes base bytes = m := by
  induction bytes generalizing base with
  | nil => rfl
  | cons v rest ih =>
    have h0 : m.read? base = some v := h 0 (Nat.succ_pos _)
    rw [Memory.writeBytes_cons, Memory.write_of_read? m h0]
    refine ih (base + 1) fun j hj => ?_
    have := h (j + 1) (by simpa using hj)
    rw [show base + 1 + j = base + (j + 1) by omega, this]
    simp

/-- The first address of a canonical memory is below all later ones. -/
theorem Memory.wf_cons {c : Host.Cell} {m : Memory} (h : Memory.wf (c :: m) = true) : Memory.wf m = true := by
  cases m with
  | nil => rfl
  | cons d rest => simp only [Memory.wf, Bool.and_eq_true] at h; exact h.2

/-- A write keeps the canonical form. -/
theorem Memory.write_wf (m : Memory) (a : Nat) (v : Byte) (h : Memory.wf m = true) :
    Memory.wf (m.write a v) = true := by
  induction m with
  | nil => rfl
  | cons c rest ih =>
    obtain ⟨b, w⟩ := c
    have hr := Memory.wf_cons h
    simp only [Memory.write]
    split
    · rename_i h1
      simp [Memory.wf, h1, h]
    · split
      · rename_i h1 h2
        subst h2
        cases rest with
        | nil => rfl
        | cons d rest => simpa [Memory.wf] using h
      · rename_i h1 h2
        have := ih hr
        cases rest with
        | nil => simp [Memory.write, Memory.wf]; omega
        | cons d rest =>
          obtain ⟨e, x⟩ := d
          simp only [Memory.write] at this ⊢
          simp only [Memory.wf, Bool.and_eq_true, decide_eq_true_eq] at h
          split
          · rename_i h3; rw [if_pos h3] at this; simp [Memory.wf] at this ⊢; exact ⟨by omega, this⟩
          · rename_i h3
            rw [if_neg h3] at this
            split
            · rename_i h4; rw [if_pos h4] at this; simp only [Memory.wf, Bool.and_eq_true, decide_eq_true_eq]; exact ⟨by omega, this⟩
            · rename_i h4; rw [if_neg h4] at this; simp only [Memory.wf, Bool.and_eq_true, decide_eq_true_eq]; exact ⟨h.1, this⟩

/-- Writing a byte sequence keeps the canonical form. -/
theorem Memory.writeBytes_wf (m : Memory) (base : Nat) (bytes : Bytes) (h : Memory.wf m = true) :
    Memory.wf (m.writeBytes base bytes) = true := by
  induction bytes generalizing m base with
  | nil => exact h
  | cons v rest ih => exact ih _ _ (Memory.write_wf m base v h)

/-- A write lists no address but its own and those listed before. -/
theorem Memory.mem_write {m : Memory} {a : Nat} {v : Byte} {c : Host.Cell} (h : c ∈ m.write a v) :
    c.1 = a ∨ c ∈ m := by
  induction m with
  | nil => simp [Memory.write] at h; simp [h]
  | cons d rest ih =>
    obtain ⟨b, w⟩ := d
    simp only [Memory.write] at h
    split at h
    · rcases List.mem_cons.1 h with rfl | h
      · exact .inl rfl
      · exact .inr h
    · split at h
      · rcases List.mem_cons.1 h with rfl | h
        · exact .inl rfl
        · exact .inr (List.mem_cons_of_mem _ h)
      · rcases List.mem_cons.1 h with rfl | h
        · exact .inr (List.mem_cons_self ..)
        · rcases ih h with h | h
          · exact .inl h
          · exact .inr (List.mem_cons_of_mem _ h)

/-- Writing inside the buffers lists buffer locations only. -/
theorem Memory.writeBytes_inBuffers (m : Memory) (base : Nat) (bytes : Bytes) (hm : Memory.inBuffers m)
    (h1 : ibufBase ≤ base) (h2 : base + bytes.length ≤ buffersEnd) : Memory.inBuffers (m.writeBytes base bytes) := by
  induction bytes generalizing m base with
  | nil => exact hm
  | cons v rest ih =>
    simp only [List.length_cons] at h2
    refine ih _ _ (fun c hc => ?_) (by omega) (by omega)
    rcases Memory.mem_write hc with h | h
    · omega
    · exact hm c h

end Sys2Proof.Machine
end

