-- ==== Sys2Proof/Laws/State.lean ====
section
/-! SUPPORT. The fields of State after each named update: one lemma a field, all true by rfl. -/

namespace Sys2Proof.Machine

section store
variable (s : State) (base : Nat) (bytes : Bytes)
@[simp] theorem State.store_mem : (s.store base bytes).mem = s.mem.writeBytes base bytes := rfl
@[simp] theorem State.store_irqEn : (s.store base bytes).irqEn = s.irqEn := rfl
@[simp] theorem State.store_code : (s.store base bytes).code = s.code := rfl
@[simp] theorem State.store_done : (s.store base bytes).done = s.done := rfl
@[simp] theorem State.store_pending : (s.store base bytes).pending = s.pending := rfl
@[simp] theorem State.store_inLen : (s.store base bytes).inLen = s.inLen := rfl
@[simp] theorem State.store_flen : (s.store base bytes).flen = s.flen := rfl
@[simp] theorem State.store_tlen : (s.store base bytes).tlen = s.tlen := rfl
@[simp] theorem State.store_dlen : (s.store base bytes).dlen = s.dlen := rfl
@[simp] theorem State.store_preRun : (s.store base bytes).preRun = s.preRun := rfl
@[simp] theorem State.store_pkt : (s.store base bytes).pkt = s.pkt := rfl
@[simp] theorem State.store_params : (s.store base bytes).params = s.params := rfl
@[simp] theorem State.store_epoch : (s.store base bytes).epoch = s.epoch := rfl
@[simp] theorem State.store_order : (s.store base bytes).order = s.order := rfl
@[simp] theorem State.store_reads : (s.store base bytes).reads = s.reads := rfl
end store

section finish
variable (c : Code) (s : State)
@[simp] theorem finish_code : (finish c s).code = c := rfl
@[simp] theorem finish_done : (finish c s).done = true := rfl
@[simp] theorem finish_pending : (finish c s).pending = none := rfl
@[simp] theorem finish_irqEn : (finish c s).irqEn = s.irqEn := rfl
@[simp] theorem finish_inLen : (finish c s).inLen = s.inLen := rfl
@[simp] theorem finish_flen : (finish c s).flen = s.flen := rfl
@[simp] theorem finish_tlen : (finish c s).tlen = s.tlen := rfl
@[simp] theorem finish_dlen : (finish c s).dlen = s.dlen := rfl
@[simp] theorem finish_preRun : (finish c s).preRun = s.preRun := rfl
@[simp] theorem finish_pkt : (finish c s).pkt = s.pkt := rfl
@[simp] theorem finish_mem : (finish c s).mem = s.mem := rfl
@[simp] theorem finish_params : (finish c s).params = s.params := rfl
@[simp] theorem finish_epoch : (finish c s).epoch = s.epoch := rfl
@[simp] theorem finish_order : (finish c s).order = s.order := rfl
@[simp] theorem finish_reads : (finish c s).reads = s.reads := rfl
end finish

section reject
variable (c : Code) (s : State)
@[simp] theorem reject_code : (reject c s).code = c := rfl
@[simp] theorem reject_done : (reject c s).done = true := rfl
@[simp] theorem reject_pending : (reject c s).pending = s.pending := rfl
@[simp] theorem reject_irqEn : (reject c s).irqEn = s.irqEn := rfl
@[simp] theorem reject_inLen : (reject c s).inLen = s.inLen := rfl
@[simp] theorem reject_flen : (reject c s).flen = s.flen := rfl
@[simp] theorem reject_tlen : (reject c s).tlen = s.tlen := rfl
@[simp] theorem reject_dlen : (reject c s).dlen = s.dlen := rfl
@[simp] theorem reject_preRun : (reject c s).preRun = s.preRun := rfl
@[simp] theorem reject_pkt : (reject c s).pkt = s.pkt := rfl
@[simp] theorem reject_mem : (reject c s).mem = s.mem := rfl
@[simp] theorem reject_params : (reject c s).params = s.params := rfl
@[simp] theorem reject_epoch : (reject c s).epoch = s.epoch := rfl
@[simp] theorem reject_order : (reject c s).order = s.order := rfl
@[simp] theorem reject_reads : (reject c s).reads = s.reads := rfl
end reject

section accept
variable (c : Cmd) (s : State)
@[simp] theorem accept_pending : (accept c s).pending = some c := rfl
@[simp] theorem accept_done : (accept c s).done = false := rfl
@[simp] theorem accept_code : (accept c s).code = s.code := rfl
@[simp] theorem accept_irqEn : (accept c s).irqEn = s.irqEn := rfl
@[simp] theorem accept_inLen : (accept c s).inLen = s.inLen := rfl
@[simp] theorem accept_flen : (accept c s).flen = s.flen := rfl
@[simp] theorem accept_tlen : (accept c s).tlen = s.tlen := rfl
@[simp] theorem accept_dlen : (accept c s).dlen = s.dlen := rfl
@[simp] theorem accept_preRun : (accept c s).preRun = s.preRun := rfl
@[simp] theorem accept_pkt : (accept c s).pkt = s.pkt := rfl
@[simp] theorem accept_mem : (accept c s).mem = s.mem := rfl
@[simp] theorem accept_params : (accept c s).params = s.params := rfl
@[simp] theorem accept_epoch : (accept c s).epoch = s.epoch := rfl
@[simp] theorem accept_order : (accept c s).order = s.order := rfl
@[simp] theorem accept_reads : (accept c s).reads = s.reads := rfl
end accept

section clearPacket
variable (s : State)
@[simp] theorem clearPacket_pkt : (clearPacket s).pkt = PacketGroup.zero := rfl
@[simp] theorem clearPacket_code : (clearPacket s).code = s.code := rfl
@[simp] theorem clearPacket_done : (clearPacket s).done = s.done := rfl
@[simp] theorem clearPacket_pending : (clearPacket s).pending = s.pending := rfl
@[simp] theorem clearPacket_irqEn : (clearPacket s).irqEn = s.irqEn := rfl
@[simp] theorem clearPacket_inLen : (clearPacket s).inLen = s.inLen := rfl
@[simp] theorem clearPacket_flen : (clearPacket s).flen = s.flen := rfl
@[simp] theorem clearPacket_tlen : (clearPacket s).tlen = s.tlen := rfl
@[simp] theorem clearPacket_dlen : (clearPacket s).dlen = s.dlen := rfl
@[simp] theorem clearPacket_preRun : (clearPacket s).preRun = s.preRun := rfl
@[simp] theorem clearPacket_mem : (clearPacket s).mem = s.mem := rfl
@[simp] theorem clearPacket_params : (clearPacket s).params = s.params := rfl
@[simp] theorem clearPacket_epoch : (clearPacket s).epoch = s.epoch := rfl
@[simp] theorem clearPacket_order : (clearPacket s).order = s.order := rfl
@[simp] theorem clearPacket_reads : (clearPacket s).reads = s.reads := rfl
end clearPacket

section resetCore
variable (s : State)
@[simp] theorem resetCore_pending : (resetCore s).pending = none := rfl
@[simp] theorem resetCore_pkt : (resetCore s).pkt = PacketGroup.zero := rfl
@[simp] theorem resetCore_mem : (resetCore s).mem = [] := rfl
@[simp] theorem resetCore_params : (resetCore s).params = s.params := rfl
@[simp] theorem resetCore_epoch : (resetCore s).epoch = s.epoch + 1 := rfl
@[simp] theorem resetCore_order : (resetCore s).order = s.order := rfl
@[simp] theorem resetCore_reads : (resetCore s).reads = s.reads := rfl
end resetCore

section hostRead
variable (a : Addr) (s : State)
@[simp] theorem hostRead_reads : (hostRead a s).reads = (a, s.busRead a) :: s.reads := rfl
@[simp] theorem hostRead_pending : (hostRead a s).pending = s.pending := rfl
@[simp] theorem hostRead_order : (hostRead a s).order = s.order := rfl
@[simp] theorem hostRead_mem : (hostRead a s).mem = s.mem := rfl
@[simp] theorem hostRead_pkt : (hostRead a s).pkt = s.pkt := rfl
@[simp] theorem hostRead_params : (hostRead a s).params = s.params := rfl
@[simp] theorem hostRead_done : (hostRead a s).done = s.done := rfl
end hostRead

end Sys2Proof.Machine
end

