-- ==== Sys2Proof/Laws/Ops.lean ====
section
/-! SUPPORT. What each shared operation can do, said once: reading a buffer byte after a store, the issue of a command, the two
steps of a command, and one event of the order. -/

namespace Sys2Proof.Machine

/-! ## Buffer bytes -/

/-- A buffer byte depends on the memory and the draw only. -/
theorem State.bufByte_congr {s t : State} (hm : t.mem = s.mem) (he : t.epoch = s.epoch) (a : Nat) :
    t.bufByte a = s.bufByte a := by
  simp [State.bufByte, hm, he]

/-- A listed byte is what the location reads. -/
theorem State.bufByte_of_read? {s : State} {a : Nat} {v : Byte} (h : Memory.read? s.mem a = some v) :
    s.bufByte a = v := by
  simp [State.bufByte, h]

/-- A store leaves every location outside its range alone. -/
theorem State.bufByte_store_outside (s : State) (base : Nat) (bytes : Bytes) {a : Nat}
    (h : a < base ∨ base + bytes.length ≤ a) : (s.store base bytes).bufByte a = s.bufByte a := by
  simp [State.bufByte, Memory.read?_writeBytes_outside _ _ _ h]

/-- A store puts its bytes at the locations from the base on. -/
theorem State.bufByte_store_inside (s : State) (base : Nat) (bytes : Bytes) {j : Nat} (h : j < bytes.length) :
    (s.store base bytes).bufByte (base + j) = bytes[j] := by
  simp [State.bufByte, Memory.read?_writeBytes_inside _ _ _ h]

/-- The bytes of a store, read back in order, are the bytes stored. -/
theorem State.map_bufByte_store (s : State) (base : Nat) (bytes : Bytes) :
    ((List.range bytes.length).map fun j => (s.store base bytes).bufByte (base + j)) = bytes := by
  refine List.ext_getElem (by simp) fun j h1 h2 => ?_
  simp [State.bufByte_store_inside s base bytes h2]

/-- Storing what the locations list already changes nothing. -/
theorem State.store_of_read? (s : State) (base : Nat) (bytes : Bytes)
    (h : ∀ j (hj : j < bytes.length), Memory.read? s.mem (base + j) = some bytes[j]) : s.store base bytes = s := by
  simp [State.store, Memory.writeBytes_of_read? _ _ _ h]

@[simp] theorem State.inputBits_length (s : State) : s.inputBits.length = s.inLen.toNat := by simp [State.inputBits]
@[simp] theorem State.inputFrame_length (s : State) : s.inputFrame.length = s.flen.toNat := by simp [State.inputFrame]
@[simp] theorem State.inputSymbols_length (s : State) : s.inputSymbols.length = s.tlen.toNat := by
  simp [State.inputSymbols]
@[simp] theorem State.inputPacket_length (s : State) : s.inputPacket.length = s.dlen.toNat := by
  simp [State.inputPacket]

/-! ## Issue and completion -/

/-- The issue of a command: rejected with BAD_LENGTH above the capacity, else accepted. -/
theorem issue_cases (c : Cmd) (s : State) :
    (capacity c s.params < inputLength c s ∧ issue c s = reject .badLength s) ∨
      (inputLength c s ≤ capacity c s.params ∧ issue c s = accept c s) := by
  unfold issue
  split
  · exact .inl ⟨‹_›, rfl⟩
  · exact .inr ⟨by omega, rfl⟩

/-- Everything a pending command can do in a state: rejected, accepted, run, or left aside. -/
theorem runPending_cases (c : Cmd) (operation : State → State) (s : State) :
    (s.pending = none ∧ capacity c s.params < inputLength c s ∧ runPending c operation s = reject .badLength s) ∨
      (s.pending = none ∧ inputLength c s ≤ capacity c s.params ∧ runPending c operation s = accept c s) ∨
      (s.pending = some c ∧ runPending c operation s = operation s) ∨
      (∃ p, s.pending = some p ∧ p ≠ c ∧ runPending c operation s = s) := by
  unfold runPending
  split
  · rcases issue_cases c s with h | h
    · exact .inl ⟨‹_›, h⟩
    · exact .inr (.inl ⟨‹_›, h⟩)
  · rename_i p hp
    by_cases h : p = c
    · exact .inr (.inr (.inl ⟨by rw [hp, h], by simp [h]⟩))
    · exact .inr (.inr (.inr ⟨p, hp, h, by simp [h]⟩))

theorem runPending_issue {c : Cmd} {operation : State → State} {s : State} (h : s.pending = none) :
    runPending c operation s = issue c s := by
  simp [runPending, h]

theorem runPending_complete {c : Cmd} {operation : State → State} {s : State} (h : s.pending = some c) :
    runPending c operation s = operation s := by
  simp [runPending, h]

/-- Everything an immediate command can do in a state. -/
theorem runImmediate_cases (operation : State → State) (s : State) :
    (s.pending = none ∧ runImmediate operation s = operation s) ∨
      (∃ p, s.pending = some p ∧ runImmediate operation s = s) := by
  unfold runImmediate
  split
  · exact .inl ⟨‹_›, rfl⟩
  · exact .inr ⟨_, ‹_›, rfl⟩

/-- The state that a command makes of a state: exec never stops. -/
def resultOf (i : Instr) (s : State) : State :=
  match i with
  | .nop => runImmediate id s
  | .decode => runPending .decode completeDecode s
  | .sync => runPending .sync completeSync s
  | .extract => runPending .extract completeExtract s
  | .mdecode => runPending .mdecode completeMdecode s
  | .parse => runPending .parse completeParse s
  | .clear => runImmediate clearAll s

/-- exec answers a next state, for every command and state. -/
theorem exec_eq (i : Instr) (s : State) : exec i s = .next (resultOf i s) := by cases i <;> rfl

/-- The operation of a pending command at its completion step. -/
def complete (c : Cmd) : State → State :=
  match c with
  | .decode => completeDecode
  | .sync => completeSync
  | .extract => completeExtract
  | .mdecode => completeMdecode
  | .parse => completeParse

theorem resultOf_pending (c : Cmd) (s : State) : resultOf c.instr s = runPending c (complete c) s := by cases c <;> rfl

/-- exec of the pending command is its operation. -/
theorem exec_complete {c : Cmd} {s : State} (h : s.pending = some c) : exec c.instr s = .next (complete c s) := by
  rw [exec_eq, resultOf_pending, runPending_complete h]

/-- exec of a pending command where none is pending is its issue. -/
theorem exec_issue {c : Cmd} {s : State} (h : s.pending = none) : exec c.instr s = .next (issue c s) := by
  rw [exec_eq, resultOf_pending, runPending_issue h]

/-! ## The agents -/

theorem engineStep_idle {s : State} (h : s.pending = none) : engineStep s = .next s := by simp [engineStep, h]

theorem engineStep_pending {s : State} {c : Cmd} (h : s.pending = some c) :
    engineStep s = .next (complete c s) := by
  simp [engineStep, h, exec_complete h]

@[simp] theorem State.busy_none {s : State} (h : s.pending = none) : s.busy = false := by simp [State.busy, h]

@[simp] theorem State.busy_some {s : State} {c : Cmd} (h : s.pending = some c) : s.busy = true := by
  simp [State.busy, h]

/-- Everything the ENGINE's step can do. -/
theorem engineStep_cases (s : State) :
    (s.pending = none ∧ engineStep s = .next s) ∨
      (∃ c, s.pending = some c ∧ engineStep s = .next (complete c s)) := by
  rcases h : s.pending with _ | c
  · exact .inl ⟨rfl, engineStep_idle h⟩
  · exact .inr ⟨c, rfl, engineStep_pending h⟩

/-- Everything a host write can do: ignored while busy; a command issued, or an illegal opcode rejected, at OP; and elsewhere
what busStore says. -/
theorem hostWrite_cases (a : Addr) (v : Byte) (s : State) :
    (s.pending ≠ none ∧ hostWrite a v s = .next s) ∨
      (s.pending = none ∧ a = 0 ∧ ∃ i, commandOf v = some i ∧ hostWrite a v s = .next (resultOf i s)) ∨
      (s.pending = none ∧ a = 0 ∧ commandOf v = none ∧ hostWrite a v s = .next (reject .illegalCmd s)) ∨
      (s.pending = none ∧ a ≠ 0 ∧ hostWrite a v s = .next (s.busStore a v)) := by
  rcases hp : s.pending with _ | c
  · by_cases ha : a = 0
    · rcases hc : commandOf v with _ | i
      · exact .inr (.inr (.inl ⟨rfl, ha, rfl, by simp [hostWrite, State.busy, hp, ha, issueOpcode, decode, hc]⟩))
      · exact .inr (.inl ⟨rfl, ha, i, rfl, by
          simp [hostWrite, State.busy, hp, ha, issueOpcode, decode, hc, exec_eq]⟩)
    · exact .inr (.inr (.inr ⟨rfl, ha, by
        unfold hostWrite
        rw [if_neg (by simp [State.busy, hp]), if_neg ha]⟩))
  · exact .inl ⟨by simp, by simp [hostWrite, State.busy, hp]⟩

/-- A write to a register changes IRQ_EN, DONE and the four lengths at most (20_memory.md R54). -/
theorem writeRegister_frame (s : State) (offset : Nat) (v : Byte) :
    ∃ (e d : Bool) (n f t l : Half), s.writeRegister offset v =
      { s with irqEn := e, done := d, inLen := n, flen := f, tlen := t, dlen := l } := by
  unfold State.writeRegister
  split
  case h_2 => exact ⟨s.irqEn, if v.getLsbD 4 then false else s.done, s.inLen, s.flen, s.tlen, s.dlen, by split <;> rfl⟩
  all_goals exact ⟨_, _, _, _, _, _, rfl⟩

/-- Everything a step can do, in one place: it takes the first event of the order, or the ENGINE's step where there is none. -/
theorem step_eq (s : State) :
    step s = match s.order with
      | [] => engineStep s
      | e :: es => takeEvent e { s with order := es } := rfl

end Sys2Proof.Machine
end

