-- ==== Sys2Proof/Laws/Stages.lean ====
section
/-! SUPPORT. What each stage function can answer, said once: the synchronizer, the extractor, the Manchester decoder and the
parser; and what writing its result changes. -/

namespace Sys2Proof.Machine

/-! ## The bit synchronizer (41_sync.md) -/

@[simp] theorem runLen_nil : runLen [] = 0 := rfl
@[simp] theorem runLen_singleton (a : Bool) : runLen [a] = 1 := rfl
@[simp] theorem runLen_cons_cons (a b : Bool) (rest : Bits) :
    runLen (a :: b :: rest) = if a = b then 1 else runLen (b :: rest) + 1 := rfl

/-- The run is no longer than the stream. -/
theorem runLen_le_length (bits : Bits) : runLen bits ≤ bits.length := by
  match bits with
  | [] => simp
  | [_] => simp
  | a :: b :: rest =>
    have := runLen_le_length (b :: rest)
    simp only [runLen_cons_cons, List.length_cons] at *
    split <;> omega

/-- A stream with a bit has a run. -/
theorem one_le_runLen (a : Bool) (rest : Bits) : 1 ≤ runLen (a :: rest) := by
  cases rest with
  | nil => simp
  | cons b rest => rw [runLen_cons_cons]; split <;> omega

@[simp] theorem deframe_length (m : Nat) (bits : Bits) : (deframe m bits).length = m := by
  induction m generalizing bits with
  | zero => rfl
  | succ m ih => simp [deframe, ih]

/-- Byte `j` of the de-framed stream is the byte of chunk `j`. -/
theorem deframe_getElem (m : Nat) (bits : Bits) {j : Nat} (h : j < (deframe m bits).length) :
    (deframe m bits)[j] = framedByte ((bits.drop (10 * j)).take 10) := by
  induction m generalizing bits j with
  | zero => simp at h
  | succ m ih =>
    cases j with
    | zero => simp [deframe]
    | succ j =>
      simp only [deframe, List.getElem_cons_succ]
      rw [ih, List.drop_drop, show 10 * (j + 1) = 10 + 10 * j by ring]

/-- Bit `i` of the number of a bit sequence is its bit `i`. -/
theorem testBit_bitsValue (bits : Bits) (i : Nat) : (bitsValue bits).testBit i = bits.getD i false := by
  induction bits generalizing i with
  | nil => simp [bitsValue]
  | cons b rest ih =>
    cases i with
    | zero => cases b <;> simp [bitsValue]
    | succ i =>
      rw [bitsValue, Nat.testBit_succ, List.getD_cons_succ, ← ih]
      congr 1
      cases b
      · simp
      · simp; omega

/-- Data bit `i` of a framed byte is bit `i + 1` of its chunk (30_encoding.md R75). -/
theorem getLsbD_framedByte (c : Bits) {i : Nat} (h : i < 8) : (framedByte c).getLsbD i = c.getD (i + 1) false := by
  rw [framedByte, BitVec.getLsbD_ofNat, testBit_bitsValue]
  simp only [h, decide_true, Bool.true_and, List.getD_eq_getElem?_getD, List.getElem?_take, if_true, List.getElem?_drop]
  rw [Nat.add_comm 1 i]

/-- The two answers of the synchronizer. -/
theorem syncFn_cases (bits : Bits) :
    ((runLen bits = bits.length ∨ runLen bits < 2) ∧ syncFn bits = .err (runLen bits)) ∨
      (¬(runLen bits = bits.length ∨ runLen bits < 2) ∧
        syncFn bits = .ok (deframe ((bits.length - (runLen bits - 2)) / 10) (bits.drop (runLen bits - 2)))
          (runLen bits)) := by
  unfold syncFn
  dsimp only
  split
  · exact .inl ⟨‹_›, rfl⟩
  · exact .inr ⟨‹_›, rfl⟩

/-- The synchronizer gives at most a tenth as many bytes as it has bits. -/
theorem syncFn_length {bits : Bits} {out : Bytes} {run : Nat} (h : syncFn bits = .ok out run) :
    out.length ≤ bits.length / 10 := by
  rcases syncFn_cases bits with ⟨_, e⟩ | ⟨_, e⟩ <;> rw [e] at h
  · cases h
  · cases h
    rw [deframe_length]
    exact Nat.div_le_div_right (Nat.sub_le _ _)

/-! ## The extractor (42_extract.md) -/

@[simp] theorem beforeStop_nil : beforeStop [] = none := rfl
@[simp] theorem beforeStop_cons (b : Byte) (rest : Bytes) :
    beforeStop (b :: rest) = if b = stopByte then some [] else (beforeStop rest).map (b :: ·) := rfl

/-- Where there is no stop byte, the search finds none. -/
theorem beforeStop_of_not_mem {l : Bytes} (h : stopByte ∉ l) : beforeStop l = none := by
  induction l with
  | nil => rfl
  | cons b rest ih =>
    simp only [List.mem_cons, not_or] at h
    simp [ih h.2, Ne.symm h.1]

/-- The search gives what stands before the first stop byte. -/
theorem beforeStop_append {l : Bytes} (h : stopByte ∉ l) (rest : Bytes) :
    beforeStop (l ++ stopByte :: rest) = some l := by
  induction l with
  | nil => simp
  | cons b l ih =>
    simp only [List.mem_cons, not_or] at h
    simp [ih h.2, Ne.symm h.1]

/-- What the search gives is followed by a stop byte and holds none. -/
theorem beforeStop_some {l out : Bytes} (h : beforeStop l = some out) :
    stopByte ∉ out ∧ ∃ rest, l = out ++ stopByte :: rest := by
  induction l generalizing out with
  | nil => simp at h
  | cons b l ih =>
    rw [beforeStop_cons] at h
    split at h
    · rename_i hb
      cases h
      exact ⟨by simp, l, by simp [hb]⟩
    · rename_i hb
      obtain ⟨o, ho, rfl⟩ := Option.map_eq_some_iff.1 h
      obtain ⟨h1, r, rfl⟩ := ih ho
      exact ⟨by simp [h1, Ne.symm hb], r, rfl⟩

/-- The three answers of the extractor. -/
theorem extractFn_cases (f : Bytes) :
    ((f.length < 5 ∨ f.take 5 ≠ syncWord) ∧ extractFn f = .errSync) ∨
      (5 ≤ f.length ∧ f.take 5 = syncWord ∧ beforeStop (f.drop 5) = none ∧ extractFn f = .errEop) ∨
      (∃ out, 5 ≤ f.length ∧ f.take 5 = syncWord ∧ beforeStop (f.drop 5) = some out ∧ extractFn f = .ok out) := by
  unfold extractFn
  split
  · exact .inl ⟨.inl ‹_›, rfl⟩
  · rename_i h5
    split
    · exact .inl ⟨.inr ‹_›, rfl⟩
    · rename_i hs
      split
      · exact .inr (.inl ⟨by omega, by simpa using hs, ‹_›, rfl⟩)
      · exact .inr (.inr ⟨_, by omega, by simpa using hs, ‹_›, rfl⟩)

/-- The extractor drops at least the sync word and the stop byte. -/
theorem extractFn_length {f out : Bytes} (h : extractFn f = .ok out) : out.length + 6 ≤ f.length := by
  rcases extractFn_cases f with ⟨_, e⟩ | ⟨_, _, _, e⟩ | ⟨o, h5, _, hb, e⟩ <;> rw [e] at h <;> cases h
  obtain ⟨_, rest, hr⟩ := beforeStop_some hb
  have := congrArg List.length hr
  simp at this
  omega

/-! ## The Manchester decoder (43_manchester.md) -/

@[simp] theorem decodePairs_nil (mt : Vector Byte 16) : decodePairs mt [] = some [] := rfl
@[simp] theorem decodePairs_singleton (mt : Vector Byte 16) (x : Byte) : decodePairs mt [x] = some [] := rfl

theorem decodePairs_cons_cons (mt : Vector Byte 16) (x y : Byte) (rest : Bytes) :
    decodePairs mt (x :: y :: rest) =
      match pairByte mt x y with
      | none => none
      | some b => (decodePairs mt rest).map (b :: ·) := rfl

/-- The index found is the smallest place of the value. -/
theorem indexOf_some {v : Byte} {l : Bytes} {i : Nat} (h : indexOf v l = some i) :
    l[i]? = some v ∧ ∀ u, u < i → l[u]? ≠ some v := by
  induction l generalizing i with
  | nil => simp [indexOf] at h
  | cons x rest ih =>
    simp only [indexOf] at h
    split at h
    · cases h
      simpa using ‹x = v›
    · rename_i hx
      obtain ⟨k, hk, rfl⟩ := Option.map_eq_some_iff.1 h
      obtain ⟨h1, h2⟩ := ih hk
      refine ⟨by simpa using h1, fun u hu => ?_⟩
      cases u with
      | zero => simpa using hx
      | succ u => simpa using h2 u (by omega)

/-- A value is found exactly where it is an entry. -/
theorem indexOf_eq_none_iff {v : Byte} {l : Bytes} : indexOf v l = none ↔ v ∉ l := by
  induction l with
  | nil => simp [indexOf]
  | cons x rest ih =>
    simp only [indexOf]
    split
    · simp [*]
    · rename_i hx
      simp [ih, Ne.symm hx]

/-- An index found is within the table. -/
theorem indexOf_lt {v : Byte} {l : Bytes} {i : Nat} (h : indexOf v l = some i) : i < l.length := by
  have := (indexOf_some h).1
  exact (List.getElem?_eq_some_iff.1 this).1

/-- A nibble is below 16. -/
theorem nib_lt {mt : Vector Byte 16} {x : Byte} {v : Nat} (h : nib mt x = some v) : v < 16 := by
  have := indexOf_lt h
  simpa using this

/-- Two symbols give a byte exactly where both are entries; its high nibble is the first symbol's. -/
theorem pairByte_eq {mt : Vector Byte 16} {x y : Byte} {hi lo : Nat} (hx : nib mt x = some hi)
    (hy : nib mt y = some lo) : pairByte mt x y = some (BitVec.ofNat 8 (hi * 16 + lo)) := by
  have h1 := nib_lt hx
  have h2 := nib_lt hy
  simp only [pairByte, hx, hy]
  congr 2
  rw [show hi <<< 4 = 2 ^ 4 * hi by rw [Nat.shiftLeft_eq]; ring, ← Nat.two_pow_add_eq_or_of_lt (by simpa using h2)]
  ring

theorem pairByte_none {mt : Vector Byte 16} {x y : Byte} (h : x ∉ mt.toList ∨ y ∉ mt.toList) :
    pairByte mt x y = none := by
  rcases h with h | h
  · simp [pairByte, nib, indexOf_eq_none_iff.2 h]
  · simp only [pairByte, nib, indexOf_eq_none_iff.2 h]
    split <;> simp_all

/-- The decoder gives one byte for each pair. -/
theorem decodePairs_length {mt : Vector Byte 16} (t : Bytes) {out : Bytes} (h : decodePairs mt t = some out) :
    out.length = t.length / 2 := by
  match t with
  | [] => cases h; rfl
  | [_] => cases h; simp
  | x :: y :: rest =>
    rw [decodePairs_cons_cons] at h
    split at h
    · cases h
    · obtain ⟨o, ho, rfl⟩ := Option.map_eq_some_iff.1 h
      have := decodePairs_length rest ho
      simp only [List.length_cons, this]
      omega

/-- The two answers of the Manchester decoder. -/
theorem mdecodeFn_cases (mt : Vector Byte 16) (t : Bytes) :
    (decodePairs mt t = none ∧ mdecodeFn mt t = .err) ∨
      (∃ out, decodePairs mt t = some out ∧ mdecodeFn mt t = .ok out) := by
  unfold mdecodeFn
  split
  · exact .inl ⟨‹_›, rfl⟩
  · exact .inr ⟨_, ‹_›, rfl⟩

theorem mdecodeFn_length {mt : Vector Byte 16} {t out : Bytes} (h : mdecodeFn mt t = .ok out) :
    out.length = t.length / 2 := by
  rcases mdecodeFn_cases mt t with ⟨_, e⟩ | ⟨o, ho, e⟩ <;> rw [e] at h <;> cases h
  exact decodePairs_length t ho

/-! ## The parser (44_parse.md) -/

@[simp] theorem checksum_nil : checksum [] = 0 := rfl
@[simp] theorem checksum_cons (b : Byte) (rest : Bytes) : checksum (b :: rest) = b + checksum rest := rfl

theorem checksum_append (l r : Bytes) : checksum (l ++ r) = checksum l + checksum r := by
  induction l with
  | nil => simp
  | cons b l ih => simp [ih, BitVec.add_assoc]

/-- The two answers of a field that must be there. -/
theorem takeField_cases {α : Type} (k : Nat) (value : Bytes → Nat → α) (d : Bytes) (pos : Nat) :
    (pos + k ≤ d.length ∧ takeField k value d pos = .ok (value d pos, pos + k)) ∨
      (d.length < pos + k ∧ takeField k value d pos = .error pos) := by
  unfold takeField
  split
  · exact .inl ⟨‹_›, rfl⟩
  · exact .inr ⟨by omega, rfl⟩

theorem takeField_fits {α : Type} {k : Nat} {value : Bytes → Nat → α} {d : Bytes} {pos : Nat}
    (h : pos + k ≤ d.length) : takeField k value d pos = .ok (value d pos, pos + k) := by
  simp [takeField, h]

theorem takeField_cut {α : Type} {k : Nat} {value : Bytes → Nat → α} {d : Bytes} {pos : Nat}
    (h : d.length < pos + k) : takeField k value d pos = .error pos := by
  simp [takeField, show ¬pos + k ≤ d.length by omega]

theorem takeField_ok {α : Type} {k : Nat} {value : Bytes → Nat → α} {d : Bytes} {pos : Nat} {x : α} {pos' : Nat}
    (h : takeField k value d pos = .ok (x, pos')) : x = value d pos ∧ pos' = pos + k ∧ pos' ≤ d.length := by
  rcases takeField_cases k value d pos with ⟨h1, e⟩ | ⟨h1, e⟩ <;> rw [e] at h <;> cases h
  exact ⟨rfl, rfl, h1⟩

theorem gatedField_fits {α : Type} {g : Bool} {k : Nat} {value : Bytes → Nat → α} {absent : α} {d : Bytes} {pos : Nat}
    (h : pos + k * g.toNat ≤ d.length) :
    gatedField g k value absent d pos = .ok (if g then value d pos else absent, pos + k * g.toNat) := by
  cases g
  · simp [gatedField]
  · simp at h; simp [gatedField, takeField, h]

theorem gatedField_cut {α : Type} {g : Bool} {k : Nat} {value : Bytes → Nat → α} {absent : α} {d : Bytes} {pos : Nat}
    (h0 : pos ≤ d.length) (h : d.length < pos + k * g.toNat) : gatedField g k value absent d pos = .error pos := by
  cases g
  · simp at h; omega
  · simp at h; simp [gatedField, takeField, show ¬pos + k ≤ d.length by omega]

theorem gatedField_ok {α : Type} {g : Bool} {k : Nat} {value : Bytes → Nat → α} {absent : α} {d : Bytes} {pos : Nat}
    {x : α} {pos' : Nat} (h : gatedField g k value absent d pos = .ok (x, pos')) (hp : pos ≤ d.length) :
    x = (if g then value d pos else absent) ∧ pos' = pos + k * g.toNat ∧ pos' ≤ d.length := by
  cases g
  · simp [gatedField] at h
    exact ⟨by simp [h.1], by simp [h.2], by omega⟩
  · simp only [gatedField, if_true] at h
    obtain ⟨h1, h2, h3⟩ := takeField_ok h
    exact ⟨by simp [h1], by simp [h2], h3⟩

/-- The three answers of the payload step. -/
theorem takePayload_cases (ps : PayloadShortfall) (len : Nat) (d : Bytes) (pos : Nat) :
    (pos + len ≤ d.length ∧ takePayload ps len d pos = .ok ((d.drop pos).take len, pos + len)) ∨
      (d.length < pos + len ∧ ps = .malformed ∧ takePayload ps len d pos = .error pos) ∨
      (d.length < pos + len ∧ ps = .truncate ∧ takePayload ps len d pos = .ok (d.drop pos, d.length)) := by
  unfold takePayload
  split
  · exact .inl ⟨‹_›, rfl⟩
  · cases ps
    · exact .inr (.inl ⟨by omega, rfl, rfl⟩)
    · exact .inr (.inr ⟨by omega, rfl, rfl⟩)

theorem takePayload_ok {ps : PayloadShortfall} {len : Nat} {d out : Bytes} {pos pos' : Nat}
    (h : takePayload ps len d pos = .ok (out, pos')) (hp : pos ≤ d.length) :
    pos' = pos + out.length ∧ pos' ≤ d.length ∧ out.length ≤ len ∧ out = (d.drop pos).take len ∧
      (ps = .malformed → out.length = len) := by
  rcases takePayload_cases ps len d pos with ⟨h1, e⟩ | ⟨_, _, e⟩ | ⟨h1, h2, e⟩ <;> rw [e] at h <;> cases h
  · simp; omega
  · refine ⟨by simp; omega, le_refl _, by simp; omega, ?_, by simp [h2]⟩
    rw [List.take_of_length_le]
    simp
    omega

/-- The three answers of the parser. -/
theorem parseFn_cases (p : Params) (d : Bytes) :
    (checksum d ≠ 0 ∧ parseFn p d = .errChecksum (checksum d)) ∨
      (checksum d = 0 ∧ ∃ pos, parseFields p d = .error pos ∧ parseFn p d = .errMalformed 0 pos) ∨
      (checksum d = 0 ∧ ∃ pk pos, parseFields p d = .ok (pk, pos) ∧ parseFn p d = .ok pk 0 pos) := by
  unfold parseFn
  dsimp only
  split
  · exact .inl ⟨‹_›, rfl⟩
  · rename_i hc
    have hc : checksum d = 0 := by simpa using hc
    rcases hf : parseFields p d with pos | ⟨pk, pos⟩
    · exact .inr (.inl ⟨hc, pos, rfl, by simp [hc]⟩)
    · exact .inr (.inr ⟨hc, pk, pos, rfl, by simp [hc]⟩)

/-- The entry of HF that a header selects, the index as a number (44_parse.md R133). -/
theorem headerFlags_eq (hf : Vector Byte 16) (h : Byte) : headerFlags hf h = hf.toList.getD (h.toNat / 4 % 16) 0 := by
  have : (h >>> 2 &&& 0x0F).toNat = h.toNat / 4 % 16 := by
    rw [BitVec.toNat_and, BitVec.toNat_ushiftRight, Nat.shiftRight_eq_div_pow]
    exact Nat.and_two_pow_sub_one_eq_mod _ 4
  rw [headerFlags, this]

/-- The fields before the payload all fit: the parser reads each at its place in the layout, and then the payload. -/
theorem parseFields_fits {p : Params} {d : Bytes} (hf : (packetLayout p (byteAt d)).payload ≤ d.length) :
    parseFields p d =
      match takePayload p.payloadShortfall (byteAt d (packetLayout p (byteAt d)).length).toNat d
        (packetLayout p (byteAt d)).payload with
      | .error pos => .error pos
      | .ok (payload, pos) =>
        .ok
          ({ header := byteAt d 0
             flags := (packetLayout p (byteAt d)).flags
             addr0 := if (packetLayout p (byteAt d)).flags.getLsbD 0 then
               asm3 p.fieldAssembly d (packetLayout p (byteAt d)).addr0 else 0
             addr1 := if (packetLayout p (byteAt d)).flags.getLsbD 1 then
               asm3 p.fieldAssembly d (packetLayout p (byteAt d)).addr1 else 0
             addr2 := if (packetLayout p (byteAt d)).flags.getLsbD 2 then
               asm3 p.fieldAssembly d (packetLayout p (byteAt d)).addr2 else 0
             param0 := if (byteAt d 0).getLsbD 1 then byteAt d (packetLayout p (byteAt d)).param0 else 0
             param1 := if (byteAt d 0).getLsbD 0 then byteAt d (packetLayout p (byteAt d)).param1 else 0
             pcmd := asm2 p.fieldAssembly d (packetLayout p (byteAt d)).command
             len := byteAt d (packetLayout p (byteAt d)).length
             payload }, pos) := by
  simp only [packetLayout, ← headerFlags_eq] at hf ⊢
  unfold parseFields
  rw [takeField_fits (by omega)]
  simp only [bind, Except.bind, Nat.zero_add]
  rw [gatedField_fits (by omega)]
  dsimp only
  rw [gatedField_fits (by omega)]
  dsimp only
  rw [gatedField_fits (by omega)]
  dsimp only
  rw [gatedField_fits (by omega)]
  dsimp only
  rw [gatedField_fits (by omega)]
  dsimp only
  rw [takeField_fits (by omega)]
  dsimp only
  rw [takeField_fits (by omega)]
  dsimp only
  simp only [Nat.one_mul, Nat.add_assoc, Nat.reduceAdd]
  generalize takePayload _ _ _ _ = r
  rcases r with _ | ⟨_, _⟩ <;> rfl

/-- A packet that ends inside a field before the payload: the parser stops at that field. -/
theorem parseFields_cut {p : Params} {d : Bytes} {pos : Nat}
    (hc : CutAt (packetLayout p (byteAt d)) d.length pos) : parseFields p d = .error pos := by
  simp only [CutAt, packetLayout, ← headerFlags_eq] at hc
  unfold parseFields
  rcases hc with ⟨rfl, h⟩ | ⟨h1, h⟩
  · rw [takeField_cut (by omega)]; rfl
  · rw [takeField_fits (by omega)]
    simp only [bind, Except.bind, Nat.zero_add]
    rcases h with ⟨rfl, h2, h3⟩ | h
    · rw [gatedField_cut (by omega) (by omega)]
    rw [gatedField_fits (by omega)]
    dsimp only
    rcases h with ⟨rfl, h2, h3⟩ | h
    · rw [gatedField_cut (by omega) (by omega)]
    rw [gatedField_fits (by omega)]
    dsimp only
    rcases h with ⟨rfl, h2, h3⟩ | h
    · rw [gatedField_cut (by omega) (by omega)]
    rw [gatedField_fits (by omega)]
    dsimp only
    rcases h with ⟨rfl, h2, h3⟩ | h
    · rw [gatedField_cut (by omega) (by omega)]
    rw [gatedField_fits (by omega)]
    dsimp only
    rcases h with ⟨rfl, h2, h3⟩ | h
    · rw [gatedField_cut (by omega) (by omega)]
      simp only [Nat.one_mul]
    rw [gatedField_fits (by omega)]
    dsimp only
    rcases h with ⟨rfl, h2, h3⟩ | ⟨rfl, h2, h3⟩
    · rw [takeField_cut (by omega)]
      simp only [Nat.one_mul]
    rw [takeField_fits (by omega)]
    dsimp only
    rw [takeField_cut (by omega)]
    simp only [Nat.one_mul]

/-- A packet either has room for every field before the payload or ends inside one of them. -/
theorem packetLayout_fits_or_cut (p : Params) (d : Nat → Byte) (n : Nat) :
    (packetLayout p d).payload ≤ n ∨ ∃ pos, CutAt (packetLayout p d) n pos := by
  simp only [CutAt, packetLayout]
  by_cases h1 : n < 1
  · exact .inr ⟨0, .inl ⟨rfl, h1⟩⟩
  · generalize p.hf.toList.getD ((d 0).toNat / 4 % 16) 0 = f
    rcases Nat.lt_or_ge n (1 + 3 * (f.getLsbD 0).toNat) with h | h2
    · exact .inr ⟨_, .inr ⟨by omega, .inl ⟨rfl, by omega, h⟩⟩⟩
    rcases Nat.lt_or_ge n (1 + 3 * (f.getLsbD 0).toNat + 3 * (f.getLsbD 1).toNat) with h | h3
    · exact .inr ⟨_, .inr ⟨by omega, .inr (.inl ⟨rfl, by omega, h⟩)⟩⟩
    rcases Nat.lt_or_ge n (1 + 3 * (f.getLsbD 0).toNat + 3 * (f.getLsbD 1).toNat + 3 * (f.getLsbD 2).toNat) with h | h4
    · exact .inr ⟨_, .inr ⟨by omega, .inr (.inr (.inl ⟨rfl, by omega, h⟩))⟩⟩
    generalize hA : 1 + 3 * (f.getLsbD 0).toNat + 3 * (f.getLsbD 1).toNat + 3 * (f.getLsbD 2).toNat = A at *
    rcases Nat.lt_or_ge n (A + ((d 0).getLsbD 1).toNat) with h | h5
    · exact .inr ⟨_, .inr ⟨by omega, .inr (.inr (.inr (.inl ⟨rfl, by omega, h⟩)))⟩⟩
    generalize hB : A + ((d 0).getLsbD 1).toNat = B at *
    rcases Nat.lt_or_ge n (B + ((d 0).getLsbD 0).toNat) with h | h6
    · exact .inr ⟨_, .inr ⟨by omega, .inr (.inr (.inr (.inr (.inl ⟨rfl, by omega, h⟩))))⟩⟩
    generalize hC : B + ((d 0).getLsbD 0).toNat = C at *
    rcases Nat.lt_or_ge n (C + 2) with h | h7
    · exact .inr ⟨_, .inr ⟨by omega, .inr (.inr (.inr (.inr (.inr (.inl ⟨rfl, by omega, h⟩)))))⟩⟩
    rcases Nat.lt_or_ge n (C + 3) with h | h8
    · exact .inr ⟨_, .inr ⟨by omega, .inr (.inr (.inr (.inr (.inr (.inr ⟨rfl, by omega, h⟩)))))⟩⟩
    exact .inl h8

/-- Everything a successful parse says of its packet and of the bytes it consumed. -/
theorem parseFields_ok {p : Params} {d : Bytes} {pk : PacketFields} {pos : Nat} (h : parseFields p d = .ok (pk, pos)) :
    pk.flags = headerFlags p.hf pk.header ∧
      (pk.flags.getLsbD 0 = false → pk.addr0 = 0) ∧ (pk.flags.getLsbD 1 = false → pk.addr1 = 0) ∧
      (pk.flags.getLsbD 2 = false → pk.addr2 = 0) ∧ (pk.header.getLsbD 1 = false → pk.param0 = 0) ∧
      (pk.header.getLsbD 0 = false → pk.param1 = 0) ∧ pk.payload.length ≤ pk.len.toNat ∧
      (p.payloadShortfall = .malformed → pk.payload.length = pk.len.toNat) ∧
      pos = (packetLayout p (byteAt d)).payload + pk.payload.length ∧ pos ≤ d.length ∧ pk.header = byteAt d 0 := by
  rcases packetLayout_fits_or_cut p (byteAt d) d.length with hf | ⟨q, hc⟩
  · rw [parseFields_fits hf] at h
    split at h
    · cases h
    · rename_i e
      cases h
      obtain ⟨k1, k2, k3, _, k5⟩ := takePayload_ok e hf
      refine ⟨?_, ?_, ?_, ?_, ?_, ?_, k3, k5, k1, k2, rfl⟩
      · rw [headerFlags_eq]; rfl
      all_goals intro h; simp only at h; exact if_neg (by rw [h]; exact Bool.false_ne_true)
  · rw [parseFields_cut hc] at h
    cases h

/-- Byte `i` of a padded sequence. -/
theorem getD_padTo (n : Nat) (l : Bytes) (i : Nat) :
    (padTo n l).toList.getD i 0 = if i < n then l.getD i 0 else 0 := by
  have e : (padTo n l).toList = l.take n ++ List.replicate (n - l.length) 0 := by simp [padTo, Vector.toList]
  rw [e, List.getD_eq_getElem?_getD, List.getElem?_append, List.length_take]
  by_cases hi : i < n
  · by_cases hl : i < l.length
    · simp [hi, hl]
    · rw [if_neg (by omega), List.getElem?_replicate]
      have : l.getD i 0 = 0 := by simp [List.getD_eq_getElem?_getD, List.getElem?_eq_none (Nat.not_lt.1 hl)]
      rw [if_pos hi, this]
      split <;> rfl
  · rw [if_neg (by omega), List.getElem?_replicate, if_neg (by omega), if_neg hi]
    rfl

/-! ## What writing a stage's result changes -/

theorem writeSync_frame (r : SyncResult) (s : State) :
    writeSync r s = { s with preRun := (writeSync r s).preRun, flen := (writeSync r s).flen, mem := (writeSync r s).mem } := by
  cases r <;> rfl

theorem writeExtract_frame (r : ExtractResult) (s : State) :
    writeExtract r s = { s with tlen := (writeExtract r s).tlen, mem := (writeExtract r s).mem } := by
  cases r <;> rfl

theorem writeMdecode_frame (r : MdecodeResult) (s : State) :
    writeMdecode r s = { s with dlen := (writeMdecode r s).dlen, mem := (writeMdecode r s).mem } := by
  cases r <;> rfl

theorem writeParse_frame (r : ParseResult) (s : State) :
    writeParse r s = { s with pkt := (writeParse r s).pkt } := by
  cases r <;> rfl

end Sys2Proof.Machine
end

