-- ==== Sys2Proof/Laws/Exec.lean ====
section
/-! SUPPORT. Frames of whole commands, of the host's writes and of the ENGINE's step, and running the machine. -/

namespace Sys2Proof.Machine

/-- What every operation leaves alone, and how it ends: the fields of State that no pending command writes
(40_command_cycle.md R96, R97). -/
structure Keeps (s t : State) : Prop where
  irqEn : t.irqEn = s.irqEn
  inLen : t.inLen = s.inLen
  params : t.params = s.params
  epoch : t.epoch = s.epoch
  order : t.order = s.order
  reads : t.reads = s.reads
  ibuf : ∀ a, a < 0x1400 → t.bufByte a = s.bufByte a

theorem Keeps.refl (s : State) : Keeps s s := ⟨rfl, rfl, rfl, rfl, rfl, rfl, fun _ _ => rfl⟩

theorem Keeps.trans {s t u : State} (h : Keeps s t) (k : Keeps t u) : Keeps s u :=
  ⟨k.irqEn.trans h.irqEn, k.inLen.trans h.inLen, k.params.trans h.params, k.epoch.trans h.epoch,
    k.order.trans h.order, k.reads.trans h.reads, fun a ha => (k.ibuf a ha).trans (h.ibuf a ha)⟩

theorem keeps_finish (c : Code) (s : State) : Keeps s (finish c s) := ⟨rfl, rfl, rfl, rfl, rfl, rfl, fun _ _ => rfl⟩
theorem keeps_reject (c : Code) (s : State) : Keeps s (reject c s) := ⟨rfl, rfl, rfl, rfl, rfl, rfl, fun _ _ => rfl⟩
theorem keeps_accept (c : Cmd) (s : State) : Keeps s (accept c s) := ⟨rfl, rfl, rfl, rfl, rfl, rfl, fun _ _ => rfl⟩
theorem keeps_clearPacket (s : State) : Keeps s (clearPacket s) := ⟨rfl, rfl, rfl, rfl, rfl, rfl, fun _ _ => rfl⟩
theorem keeps_clearAll (s : State) : Keeps s (clearAll s) := ⟨rfl, rfl, rfl, rfl, rfl, rfl, fun _ _ => rfl⟩

theorem keeps_writeSync (r : SyncResult) (s : State) : Keeps s (writeSync r s) := by
  cases r with
  | err run => exact ⟨rfl, rfl, rfl, rfl, rfl, rfl, fun _ _ => rfl⟩
  | ok out run =>
    exact ⟨rfl, rfl, rfl, rfl, rfl, rfl, fun a ha => State.bufByte_store_outside s fbufBase out (.inl ha)⟩

theorem keeps_writeExtract (r : ExtractResult) (s : State) : Keeps s (writeExtract r s) := by
  cases r with
  | errSync => exact ⟨rfl, rfl, rfl, rfl, rfl, rfl, fun _ _ => rfl⟩
  | errEop => exact ⟨rfl, rfl, rfl, rfl, rfl, rfl, fun _ _ => rfl⟩
  | ok out =>
    exact ⟨rfl, rfl, rfl, rfl, rfl, rfl, fun a ha =>
      State.bufByte_store_outside s tbufBase out (.inl (by simp only [tbufBase]; omega))⟩

theorem keeps_writeMdecode (r : MdecodeResult) (s : State) : Keeps s (writeMdecode r s) := by
  cases r with
  | err => exact ⟨rfl, rfl, rfl, rfl, rfl, rfl, fun _ _ => rfl⟩
  | ok out =>
    exact ⟨rfl, rfl, rfl, rfl, rfl, rfl, fun a ha =>
      State.bufByte_store_outside s dbufBase out (.inl (by simp only [dbufBase]; omega))⟩

theorem keeps_writeParse (r : ParseResult) (s : State) : Keeps s (writeParse r s) := by
  cases r <;> exact ⟨rfl, rfl, rfl, rfl, rfl, rfl, fun _ _ => rfl⟩

/-- Everything the pipeline can do from the bits on: it ends at the first stage that fails, or after the parser. -/
theorem decodeFromBits_cases (bits : Bits) (s : State) :
    (∃ run, syncFn bits = .err run ∧ decodeFromBits bits s = finish .preambleError (writeSync (.err run) s)) ∨
      ∃ f run, syncFn bits = .ok f run ∧
        ((extractFn f = .errSync ∧
            decodeFromBits bits s = finish .syncError (writeExtract .errSync (writeSync (.ok f run) s))) ∨
          (extractFn f = .errEop ∧
            decodeFromBits bits s = finish .eopError (writeExtract .errEop (writeSync (.ok f run) s))) ∨
          ∃ t, extractFn f = .ok t ∧
            ((mdecodeFn s.params.mt t = .err ∧
                decodeFromBits bits s =
                  finish .manchesterError (writeMdecode .err (writeExtract (.ok t) (writeSync (.ok f run) s)))) ∨
              ∃ d, mdecodeFn s.params.mt t = .ok d ∧
                decodeFromBits bits s =
                  finish (parseCode (parseFn s.params d))
                    (writeParse (parseFn s.params d)
                      (writeMdecode (.ok d) (writeExtract (.ok t) (writeSync (.ok f run) s)))))) := by
  unfold decodeFromBits
  rcases h1 : syncFn bits with run | ⟨f, run⟩
  · exact .inl ⟨run, rfl, rfl⟩
  · refine .inr ⟨f, run, rfl, ?_⟩
    dsimp only
    unfold decodeFromFrame
    rcases h2 : extractFn f with _ | _ | t
    · exact .inl ⟨rfl, rfl⟩
    · exact .inr (.inl ⟨rfl, rfl⟩)
    · refine .inr (.inr ⟨t, rfl, ?_⟩)
      dsimp only
      unfold decodeFromSymbols
      rw [(keeps_writeExtract (.ok t) _).params, (keeps_writeSync (.ok f run) s).params]
      rcases h3 : mdecodeFn s.params.mt t with _ | d
      · exact .inl ⟨rfl, rfl⟩
      · refine .inr ⟨d, rfl, ?_⟩
        dsimp only [decodeFromPacket]
        rw [(keeps_writeMdecode (.ok d) _).params, (keeps_writeExtract (.ok t) _).params,
          (keeps_writeSync (.ok f run) s).params]

/-- The code of a parse is a packet code. -/
theorem parseCode_bits (r : ParseResult) : (parseCode r).bits.toNat ≤ 6 := by cases r <;> simp [parseCode, Code.bits]

/-- Every operation of a pending command keeps what no command writes, and ends with `finish`. -/
theorem complete_keeps (c : Cmd) (s : State) :
    Keeps s (complete c s) ∧ (complete c s).pending = none ∧ (complete c s).done = true ∧
      (complete c s).code.bits.toNat ≤ 6 := by
  cases c with
  | decode =>
    refine ⟨?_, ?_⟩
    · refine (keeps_clearPacket s).trans ?_
      show Keeps _ (decodeFromBits s.inputBits (clearPacket s))
      rcases decodeFromBits_cases s.inputBits (clearPacket s) with
        ⟨run, _, e⟩ | ⟨f, run, _, ⟨_, e⟩ | ⟨_, e⟩ | ⟨t, _, ⟨_, e⟩ | ⟨d, _, e⟩⟩⟩ <;> rw [e]
      · exact (keeps_writeSync _ _).trans (keeps_finish _ _)
      · exact ((keeps_writeSync _ _).trans (keeps_writeExtract _ _)).trans (keeps_finish _ _)
      · exact ((keeps_writeSync _ _).trans (keeps_writeExtract _ _)).trans (keeps_finish _ _)
      · exact (((keeps_writeSync _ _).trans (keeps_writeExtract _ _)).trans (keeps_writeMdecode _ _)).trans
          (keeps_finish _ _)
      · exact ((((keeps_writeSync _ _).trans (keeps_writeExtract _ _)).trans (keeps_writeMdecode _ _)).trans
          (keeps_writeParse _ _)).trans (keeps_finish _ _)
    · show (decodeFromBits s.inputBits (clearPacket s)).pending = none ∧ _ ∧ _
      simp only [complete, completeDecode]
      rcases decodeFromBits_cases s.inputBits (clearPacket s) with
        ⟨run, _, e⟩ | ⟨f, run, _, ⟨_, e⟩ | ⟨_, e⟩ | ⟨t, _, ⟨_, e⟩ | ⟨d, _, e⟩⟩⟩ <;> rw [e]
      · exact ⟨rfl, rfl, (by decide : Code.preambleError.bits.toNat ≤ 6)⟩
      · exact ⟨rfl, rfl, (by decide : Code.syncError.bits.toNat ≤ 6)⟩
      · exact ⟨rfl, rfl, (by decide : Code.eopError.bits.toNat ≤ 6)⟩
      · exact ⟨rfl, rfl, (by decide : Code.manchesterError.bits.toNat ≤ 6)⟩
      · exact ⟨rfl, rfl, parseCode_bits _⟩
  | sync =>
    refine ⟨(keeps_writeSync _ s).trans (keeps_finish _ _), rfl, rfl, ?_⟩
    simp only [complete, completeSync, finish_code]
    cases syncFn s.inputBits <;> simp [syncCode, Code.bits]
  | extract =>
    refine ⟨(keeps_writeExtract _ s).trans (keeps_finish _ _), rfl, rfl, ?_⟩
    simp only [complete, completeExtract, finish_code]
    cases extractFn s.inputFrame <;> simp [extractCode, Code.bits]
  | mdecode =>
    refine ⟨(keeps_writeMdecode _ s).trans (keeps_finish _ _), rfl, rfl, ?_⟩
    simp only [complete, completeMdecode, finish_code]
    cases mdecodeFn s.params.mt s.inputSymbols <;> simp [mdecodeCode, Code.bits]
  | parse =>
    exact ⟨((keeps_clearPacket s).trans (keeps_writeParse _ _)).trans (keeps_finish _ _), rfl, rfl,
      parseCode_bits _⟩

/-- Every command keeps what no command writes. -/
theorem resultOf_keeps (i : Instr) (s : State) : Keeps s (resultOf i s) := by
  have key (c : Cmd) : Keeps s (runPending c (complete c) s) := by
    rcases runPending_cases c (complete c) s with ⟨_, _, h⟩ | ⟨_, _, h⟩ | ⟨_, h⟩ | ⟨_, _, _, h⟩ <;> rw [h]
    · exact keeps_reject _ s
    · exact keeps_accept c s
    · exact (complete_keeps c s).1
    · exact Keeps.refl s
  cases i with
  | nop => rcases runImmediate_cases id s with ⟨_, h⟩ | ⟨_, _, h⟩ <;> rw [resultOf, h] <;> exact Keeps.refl s
  | decode => exact key .decode
  | sync => exact key .sync
  | extract => exact key .extract
  | mdecode => exact key .mdecode
  | parse => exact key .parse
  | clear =>
    rcases runImmediate_cases clearAll s with ⟨_, h⟩ | ⟨_, _, h⟩ <;> rw [resultOf, h]
    · exact keeps_clearAll s
    · exact Keeps.refl s

/-- What a host write outside OP leaves alone. -/
theorem busStore_frame (s : State) (a : Addr) (v : Byte) :
    (s.busStore a v).params = s.params ∧ (s.busStore a v).order = s.order ∧ (s.busStore a v).pending = s.pending ∧
      (s.busStore a v).pkt = s.pkt ∧ (s.busStore a v).epoch = s.epoch ∧ (s.busStore a v).reads = s.reads ∧
      (s.busStore a v).code = s.code ∧ (s.busStore a v).preRun = s.preRun := by
  unfold State.busStore
  dsimp only
  split
  · obtain ⟨e, d, n, f, t, l, h⟩ := writeRegister_frame s a.toNat v
    rw [h]
    simp
  · split <;> simp

/-- Every host write answers a next state and keeps the parameters and the order. -/
theorem hostWrite_next (a : Addr) (v : Byte) (s : State) :
    ∃ t, hostWrite a v s = .next t ∧ t.params = s.params ∧ t.order = s.order := by
  rcases hostWrite_cases a v s with ⟨_, e⟩ | ⟨_, _, i, _, e⟩ | ⟨_, _, _, e⟩ | ⟨_, _, e⟩
  · exact ⟨_, e, rfl, rfl⟩
  · exact ⟨_, e, (resultOf_keeps i s).params, (resultOf_keeps i s).order⟩
  · exact ⟨_, e, rfl, rfl⟩
  · exact ⟨_, e, (busStore_frame s a v).1, (busStore_frame s a v).2.1⟩

/-- The ENGINE's step answers a next state with no command pending, and keeps the parameters and the order. -/
theorem engineStep_next (s : State) :
    ∃ t, engineStep s = .next t ∧ t.params = s.params ∧ t.order = s.order ∧ t.pending = none := by
  rcases engineStep_cases s with ⟨hp, e⟩ | ⟨c, _, e⟩
  · exact ⟨_, e, rfl, rfl, hp⟩
  · obtain ⟨k, hp, _, _⟩ := complete_keeps c s
    exact ⟨_, e, k.params, k.order, hp⟩

/-- Running the machine one step further. -/
theorem run_succ {s t : State} (h : step s = .next t) (k : Nat) :
    Host.Core.run Sys2Proof.core (k + 1) s = Host.Core.run Sys2Proof.core k t := by
  have h' : Sys2Proof.core.step s = .next t := h
  simp only [Host.Core.run, h']

theorem run_zero (s : State) : Host.Core.run Sys2Proof.core 0 s = .next s := rfl

end Sys2Proof.Machine
end

