-- ==== Sys2Proof/Laws/Bus.lean ====
section
/-! SUPPORT. The host's accesses: which addresses are buffer addresses, and what a write step does. -/

namespace Sys2Proof.Machine

/-- The buffer addresses, as ranges (20_memory.md R53). -/
theorem isBufferAddress_iff (p : Params) (a : Nat) :
    isBufferAddress p a = true ↔
      (0x1000 ≤ a ∧ a < 0x1400 ∧ a < 0x1000 + p.maxBits / 8) ∨ (0x1400 ≤ a ∧ a < 0x2000) := by
  unfold isBufferAddress ibufBase fbufBase buffersEnd
  rw [Bool.or_eq_true, Bool.and_eq_true, Bool.and_eq_true]
  simp [and_assoc]

/-- A host write outside OP, as a step, with no command pending. -/
theorem step_write {s : State} {a : Addr} {v : Byte} {es : List Event} (ho : s.order = .write a v :: es)
    (hp : s.pending = none) (ha : a ≠ 0) : step s = .next (({ s with order := es } : State).busStore a v) := by
  rw [step_eq, ho]
  simp only [takeEvent, hostWrite]
  rw [if_neg (by simp [State.busy, hp]), if_neg ha]

/-- A host write while a command is pending, as a step (20_memory.md R63). -/
theorem step_write_busy {s : State} {a : Addr} {v : Byte} {es : List Event} {c : Cmd}
    (ho : s.order = .write a v :: es) (hp : s.pending = some c) : step s = .next { s with order := es } := by
  rw [step_eq, ho]
  simp [takeEvent, hostWrite, State.busy, hp]

/-- A write to a buffer address stores the byte. -/
theorem busStore_buffer {s : State} {a : Addr} (v : Byte) (h : isBufferAddress s.params a.toNat = true) :
    s.busStore a v = s.store a.toNat [v] := by
  have := (isBufferAddress_iff _ _).1 h
  unfold State.busStore
  dsimp only
  rw [if_neg (by omega), if_pos h]

/-- A read of a buffer address gives the buffer byte. -/
theorem busRead_buffer {s : State} {a : Addr} (h : isBufferAddress s.params a.toNat = true) :
    s.busRead a = s.bufByte a.toNat := by
  have := (isBufferAddress_iff _ _).1 h
  unfold State.busRead
  dsimp only
  rw [if_neg (by omega), if_neg (by omega), if_pos h]

/-- The value of a register whose high byte is written (20_memory.md R56). -/
theorem toNat_withHi (h : Half) (v : Byte) : (withHi h v).toNat = v.toNat * 256 + h.toNat % 256 := by
  have := h.isLt
  simp only [withHi, loByte, BitVec.toNat_append, BitVec.extractLsb'_toNat, Nat.shiftRight_zero]
  rw [← Nat.shiftLeft_add_eq_or_of_lt (by omega), Nat.shiftLeft_eq]

/-- The value of a register whose low byte is written (20_memory.md R56). -/
theorem toNat_withLo (h : Half) (v : Byte) : (withLo h v).toNat = h.toNat / 256 * 256 + v.toNat := by
  have := h.isLt
  have := v.isLt
  simp only [withLo, hiByte, BitVec.toNat_append, BitVec.extractLsb'_toNat]
  rw [← Nat.shiftLeft_add_eq_or_of_lt (by omega), Nat.shiftLeft_eq, Nat.shiftRight_eq_div_pow,
    Nat.mod_eq_of_lt (by omega)]

/-- The two bytes of a register make it up (20_memory.md R55). -/
theorem hiByte_loByte (h : Half) : (hiByte h).toNat * 256 + (loByte h).toNat = h.toNat := by
  have := h.isLt
  simp only [hiByte, loByte, BitVec.extractLsb'_toNat, Nat.shiftRight_eq_div_pow]
  omega

/-- The three bytes of an address make it up (10_state.md R36). -/
theorem packetAddrByte_sum (a : PacketAddr) :
    (packetAddrByte a 2).toNat * 65536 + (packetAddrByte a 1).toNat * 256 + (packetAddrByte a 0).toNat = a.toNat := by
  have := a.isLt
  simp only [packetAddrByte, BitVec.extractLsb'_toNat, Nat.shiftRight_eq_div_pow]
  omega

end Sys2Proof.Machine
end

