-- ==== Sys2Proof/Laws/Bits.lean ====
section
/-! SUPPORT. The values of fields put together from bytes, and framed bytes and packed bits read back. -/

namespace Sys2Proof.Machine

/-- The value of a 24-bit field of three bytes (30_encoding.md R86). -/
theorem toNat_packetAddr (a b c : Byte) :
    (packetAddr a b c).toNat = a.toNat * 65536 + b.toNat * 256 + c.toNat := by
  have := a.isLt
  have := b.isLt
  have := c.isLt
  simp only [packetAddr, BitVec.toNat_append]
  rw [← Nat.shiftLeft_add_eq_or_of_lt (by omega), ← Nat.shiftLeft_add_eq_or_of_lt (by omega), Nat.shiftLeft_eq,
    Nat.shiftLeft_eq]
  omega

/-- The value of a 16-bit field of two bytes (30_encoding.md R87). -/
theorem toNat_half (a b : Byte) : (half a b).toNat = a.toNat * 256 + b.toNat := by
  have := a.isLt
  have := b.isLt
  simp only [half, BitVec.toNat_append]
  rw [← Nat.shiftLeft_add_eq_or_of_lt (by omega), Nat.shiftLeft_eq]

/-- Writing both bytes of a register writes all of it (30_encoding.md R94 SETLEN). -/
theorem withLo_withHi (x v : Half) : withLo (withHi x (hiByte v)) (loByte v) = v := by
  apply BitVec.eq_of_toNat_eq
  rw [toNat_withLo, toNat_withHi]
  have h := hiByte_loByte v
  rw [show ((hiByte v).toNat * 256 + x.toNat % 256) / 256 = (hiByte v).toNat by omega]
  exact h

@[simp] theorem framed_length (b : Byte) : (framed b).length = 10 := by simp [framed]

/-- A framed byte reads back as the byte (30_encoding.md R74, R75). -/
@[simp] theorem framedByte_framed (b : Byte) : framedByte (framed b) = b := by
  apply BitVec.eq_of_getLsbD_eq
  intro i hi
  rw [getLsbD_framedByte _ hi, framed, List.cons_append, List.getD_cons_succ, List.getD_eq_getElem?_getD,
    List.getElem?_append_left (by simpa using hi)]
  simp [hi]

/-- Framed bytes at the front of a stream are de-framed to themselves (41_sync.md R111). -/
theorem deframe_framed (l : Bytes) (rest : Bits) (m : Nat) (hm : l.length ≤ m) :
    deframe m (l.flatMap framed ++ rest) = l ++ deframe (m - l.length) rest := by
  induction l generalizing m with
  | nil => simp
  | cons b l ih =>
    simp only [List.length_cons] at hm
    obtain ⟨m, rfl⟩ : ∃ k, m = k + 1 := ⟨m - 1, by omega⟩
    simp only [List.flatMap_cons, List.append_assoc, deframe, List.length_cons, List.cons_append]
    rw [List.take_append_of_le_length (by simp), List.drop_append_of_le_length (by simp),
      show (framed b).take 10 = framed b from List.take_of_length_le (by simp), framedByte_framed,
      show (framed b).drop 10 = [] from List.drop_eq_nil_of_le (by simp), List.nil_append, ih m (by omega)]
    congr 3
    omega

/-- Bit `i` of a packed bitstream, read as the buffer reads it (20_memory.md R62). -/
theorem streamBit_packBits (bits : Bits) {i : Nat} (hi : i < bits.length) :
    ∃ h : i / 8 < (packBits bits).length, streamBit ((packBits bits)[i / 8]) i = bits.getD i false := by
  refine ⟨by simp [packBits]; omega, ?_⟩
  simp only [packBits, List.getElem_map, List.getElem_range, streamBit]
  have h8 : 7 - i % 8 < 8 := by omega
  rw [BitVec.getLsbD_ofNat, testBit_bitsValue]
  simp only [h8, decide_true, Bool.true_and]
  rw [List.getD_eq_getElem?_getD, List.getElem?_map, List.getElem?_range h8]
  simp only [Option.map_some, Option.getD_some]
  congr 1
  omega

end Sys2Proof.Machine
end

