-- ==== Sys2Proof/Laws/Good.lean ====
section
/-! SUPPORT. How the writes of a stage's result keep the parts of a good state (Safety.lean): the memory in its canonical form and
inside the buffers, and the packet-result group. -/

namespace Sys2Proof.Machine

/-- The limits of 00_scope.md R7 bound the input bitstream. -/
theorem maxBits_le {p : Params} (h : p.capacityOk = true) : p.maxBits ≤ 8192 := by
  simp only [Params.capacityOk, Params.maxBitsInRange, Bool.and_eq_true, decide_eq_true_eq] at h
  omega

/-- A memory in its canonical form, inside the buffers. -/
structure MemoryGood (m : Memory) : Prop where
  wf : Memory.wf m = true
  inBuffers : Memory.inBuffers m

theorem MemoryGood.writeBytes {m : Memory} (h : MemoryGood m) (base : Nat) (bytes : Bytes) (h1 : ibufBase ≤ base)
    (h2 : base + bytes.length ≤ buffersEnd) : MemoryGood (m.writeBytes base bytes) :=
  ⟨Memory.writeBytes_wf _ _ _ h.wf, Memory.writeBytes_inBuffers _ _ _ h.inBuffers h1 h2⟩

theorem memoryGood_writeSync {s : State} {bits : Bits} (h : MemoryGood s.mem) (hb : bits.length ≤ 8192) :
    MemoryGood (writeSync (syncFn bits) s).mem := by
  rcases hr : syncFn bits with run | ⟨out, run⟩
  · exact h
  · have := syncFn_length hr
    exact h.writeBytes fbufBase out (by decide) (by simp only [fbufBase, buffersEnd]; omega)

theorem memoryGood_writeExtract {s : State} {f : Bytes} (h : MemoryGood s.mem) (hf : f.length ≤ 1024) :
    MemoryGood (writeExtract (extractFn f) s).mem := by
  rcases hr : extractFn f with _ | _ | out
  · exact h
  · exact h
  · have := extractFn_length hr
    exact h.writeBytes tbufBase out (by decide) (by simp only [tbufBase, buffersEnd]; omega)

theorem memoryGood_writeMdecode {mt : Vector Byte 16} {s : State} {t : Bytes} (h : MemoryGood s.mem)
    (ht : t.length ≤ 1024) : MemoryGood (writeMdecode (mdecodeFn mt t) s).mem := by
  rcases hr : mdecodeFn mt t with _ | out
  · exact h
  · have := mdecodeFn_length hr
    exact h.writeBytes dbufBase out (by decide) (by simp only [dbufBase, buffersEnd]; omega)

/-- The cleared group is good: nothing of a packet is visible. -/
theorem packetGood_zero (p : Params) : PacketGroup.Good p PacketGroup.zero :=
  ⟨fun h => (by cases h), fun _ => rfl, fun _ => rfl⟩

/-- What the parser's result leaves in a cleared group is good: one whole packet, or nothing but CSUM and PCONS (44_parse.md
R142). -/
theorem packetGood_writeParse (p : Params) (d : Bytes) (s : State) (hs : s.pkt = PacketGroup.zero) :
    PacketGroup.Good p (writeParse (parseFn p d) s).pkt := by
  rcases parseFn_cases p d with ⟨h, e⟩ | ⟨h, pos, hp, e⟩ | ⟨h, pk, pos, hp, e⟩ <;> rw [e] <;>
    simp only [writeParse, hs]
  · exact ⟨fun h => (by cases h), fun _ => rfl, fun _ => rfl⟩
  · exact ⟨fun h => (by cases h), fun _ => rfl, fun h => absurd rfl h⟩
  · obtain ⟨h1, h2, h3, h4, h5, h6, h7, h8, _⟩ := parseFields_ok hp
    have hl := pk.len.isLt
    have e8 : (PacketFields.group pk 0 pos).plen.toNat = pk.payload.length := by
      show (BitVec.ofNat 8 pk.payload.length).toNat = _
      rw [BitVec.toNat_ofNat]
      omega
    refine ⟨fun _ => ⟨rfl, h1, h2, h3, h4, h5, h6, e8 ▸ h7, fun h => ?_, fun i hi => ?_⟩, fun h => (by cases h),
      fun h => absurd rfl h⟩
    · exact BitVec.eq_of_toNat_eq (e8.trans (h8 h))
    · rw [e8] at hi
      show (padTo 255 pk.payload).toList.getD i 0 = 0
      rw [getD_padTo]
      split
      · simp [List.getD_eq_getElem?_getD, hi]
      · rfl

end Sys2Proof.Machine
end

