-- ==== Sys2Proof/Laws/PerInstr.lean ====
section
/-! SUPPORT. What holds of each command as syntax: its opcode is the one byte that the opcode map gives it
(30_encoding.md R71). -/

namespace Sys2Proof.Laws.OneOpcode

/-- A command is well formed, and of all 256 opcode bytes exactly its own is read as it (30_encoding.md R71, R72). -/
def Statement (i : Instr) : Prop :=
  i.wf = true ∧ ∀ v : Byte, commandOf v = some i ↔ v = opcode i

theorem nop : Statement .nop := ⟨rfl, by decide +kernel⟩
theorem decode : Statement .decode := ⟨rfl, by decide +kernel⟩
theorem sync : Statement .sync := ⟨rfl, by decide +kernel⟩
theorem extract : Statement .extract := ⟨rfl, by decide +kernel⟩
theorem mdecode : Statement .mdecode := ⟨rfl, by decide +kernel⟩
theorem parse : Statement .parse := ⟨rfl, by decide +kernel⟩
theorem clear : Statement .clear := ⟨rfl, by decide +kernel⟩

end Sys2Proof.Laws.OneOpcode
end

