-- ==== Sys2Proof/Tests/Slice0.lean ====
section
/-! SUPPORT. Tests: expected values are those of 95_test_vectors.md, by the name of the vector. After them, one witness for each
statement of Certificates/Slice0/Obligations.lean that has hypotheses: a state and operands that meet them together. -/

namespace Sys2Proof.Tests

open Sys2Proof Sys2Proof.Machine

/-! ## Well-formedness: each check refuses a term -/

theorem test_wf_refuses_small_maxBits : Params.maxBitsInRange { Config.defaults with maxBits := 16 } = false := by decide
theorem test_wf_refuses_large_maxBits : Params.maxBitsInRange { Config.defaults with maxBits := 8200 } = false := by decide
theorem test_wf_refuses_partial_byte : Params.maxBitsWholeBytes { Config.defaults with maxBits := 25 } = false := by decide
theorem test_wf_refuses_capacity : Params.capacityOk { Config.defaults with maxBits := 25 } = false := by decide
theorem test_wf_refuses_repeated_symbol :
    Params.symbolsDistinct { Config.defaults with mt := Config.defaultMt.set 3 0xAA } = false := by decide +kernel
theorem test_wf_refuses_bad_record :
    Params.wf { Config.defaults with mt := Config.defaultMt.set 3 0xAA } = false := by decide +kernel
theorem test_wf_accepts_defaults : Params.wf Config.defaults = true := by decide +kernel

/-! ## Decoding: words written out from the opcode map, 30_encoding.md R71 -/

theorem test_decode_nop : decode [0b00000000] = .ok (.nop, []) := by decide
theorem test_decode_decode : decode [0b00000001] = .ok (.decode, []) := by decide
theorem test_decode_sync : decode [0b00000010] = .ok (.sync, []) := by decide
theorem test_decode_extract : decode [0b00000011] = .ok (.extract, []) := by decide
theorem test_decode_mdecode : decode [0b00000100] = .ok (.mdecode, []) := by decide
theorem test_decode_parse : decode [0b00000101] = .ok (.parse, []) := by decide
theorem test_decode_clear : decode [0b00001111] = .ok (.clear, []) := by decide
theorem test_decode_refuses_by_name : decode [0x0E] = .error (.illegalOpcode 0x0E) := by decide
theorem test_decode_refuses_no_byte : decode [] = .error .noByte := by decide
theorem test_table_word : decodeTableWord 8 0x0F = some .clear := by decide

/-- The illegal opcodes 0x06 to 0x0E and 0x10 to 0xFF are 9 + 240 = 249 values (log 16). -/
theorem test_illegal_count :
    ((List.range 256).filter fun v => (commandOf (BitVec.ofNat 8 v)).isNone).length = 249 := by decide +kernel

/-! ## Small states -/

/-- A state with bytes stored from an address on. -/
def loaded (base : Nat) (bytes : Bytes) : State := State.reset.store base bytes

/-- SYNC or DECODE pending on a bitstream given as IBUF bytes. -/
def onBits (c : Cmd) (bytes : Bytes) (n : Half) : State := { loaded 0x1000 bytes with inLen := n, pending := some c }

/-- EXTRACT pending on a frame. -/
def onFrame (f : Bytes) : State :=
  { loaded 0x1400 f with flen := BitVec.ofNat 16 f.length, pending := some .extract }

/-- MDECODE pending on symbols. -/
def onSymbols (t : Bytes) : State :=
  { loaded 0x1800 t with tlen := BitVec.ofNat 16 t.length, pending := some .mdecode }

/-- PARSE pending on a packet. -/
def onPacket (d : Bytes) : State :=
  { loaded 0x1C00 d with dlen := BitVec.ofNat 16 d.length, pending := some .parse }

/-- The state a step answers, the state itself where it answers none. -/
def after (r : Host.Outcome State Fault Refusal) (s : State) : State :=
  match r with
  | .next t => t
  | _ => s

/-- The reset state with an event placed. -/
def placed (es : List Event) : State := { State.reset with order := es }

/-- IBUF of DEC-1. -/
def dec1 : Bytes :=
  [0x55, 0x5F, 0xF0, 0x05, 0x99, 0x55, 0x59, 0x54, 0xAC, 0xB3, 0x2A, 0xCB, 0x34, 0xAC, 0xCD, 0x32, 0xD4, 0xD5, 0x2C, 0xAB,
    0x2D, 0x52, 0xD2, 0xAC, 0xAB, 0x33, 0x4C, 0xD5, 0x64, 0x91, 0xA0]

/-! ## The vectors of 95_test_vectors.md -/

/-- SYN-1. -/
theorem test_sync_SYN1 :
    let t := after (exec .sync (onBits .sync [0x57, 0xFC, 0x01] 24)) State.reset
    t.code = .ok ∧ t.preRun = 6 ∧ t.flen = 2 ∧ t.fbuf 0 = 0xFF ∧ t.fbuf 1 = 0x00 ∧ t.status = 0x10 := by
  decide +kernel

/-- SYN-10: the stop bit is not checked, the data bits are least significant first. -/
theorem test_sync_SYN10 :
    let t := after (exec .sync (onBits .sync [0x66, 0x80] 10)) State.reset
    t.code = .ok ∧ t.preRun = 2 ∧ t.flen = 1 ∧ t.fbuf 0 = 0xB3 := by
  decide +kernel

/-- EXT-6: the first stop byte ends the frame. -/
theorem test_extract_EXT6 :
    let t := after (exec .extract (onFrame [0xFF, 0x00, 0x33, 0x55, 0x53, 0xAA, 0x35, 0x35])) State.reset
    t.code = .ok ∧ t.tlen = 1 ∧ t.tbuf 0 = 0xAA := by
  decide +kernel

/-- EXT-11: a stop byte among the sync bytes is a sync error. -/
theorem test_extract_EXT11 :
    let t := after (exec .extract (onFrame [0xFF, 0x00, 0x33, 0x55, 0x35, 0x35])) State.reset
    t.code = .syncError ∧ t.tlen = 0 := by
  decide +kernel

/-- MAN-4: the odd last symbol is not looked at. -/
theorem test_mdecode_MAN4 :
    let t := after (exec .mdecode (onSymbols [0x55, 0xAA, 0x35])) State.reset
    t.code = .ok ∧ t.dlen = 1 ∧ t.dbuf 0 = 0xF0 := by
  decide +kernel

/-- MAN-9. -/
theorem test_mdecode_MAN9 :
    let t := after (exec .mdecode (onSymbols [0xAA, 0xA9, 0x35, 0x35])) State.reset
    t.code = .manchesterError ∧ t.dlen = 0 := by
  decide +kernel

/-- PAR-11: two addresses, both parameters, a payload. -/
theorem test_parse_PAR11 :
    let t := after (exec .parse (onPacket
      [0x0F, 0x01, 0x02, 0x03, 0x04, 0x05, 0x06, 0x07, 0x08, 0xAB, 0xCD, 0x01, 0x77, 0xDD])) State.reset
    t.code = .ok ∧ t.pkt.pcons = 13 ∧ t.pkt.flags = 0x0B ∧ t.pkt.typeByte = 0x02 ∧ t.pkt.present = 0x9B ∧
      t.pkt.addr0 = 0x010203 ∧ t.pkt.addr1 = 0x040506 ∧ groupId t.pkt.addr1 = 1 ∧ deviceId t.pkt.addr1 = 0x00506 ∧
      t.pkt.param0 = 0x07 ∧ t.pkt.param1 = 0x08 ∧ t.pkt.pcmd = 0xABCD ∧ t.pkt.plen = 1 ∧ t.pkt.payloadByte 0 = 0x77 := by
  decide +kernel

/-- PAR-8: FIELD_ASSEMBLY = REPEAT_FIRST. -/
theorem test_parse_PAR8 :
    let s := { onPacket [0x14, 0x04, 0x1A, 0x2B, 0x30, 0xC9, 0x00, 0xAA] with
      params := { Config.defaults with fieldAssembly := .repeatFirst } }
    let t := after (exec .parse s) State.reset
    t.code = .ok ∧ t.pkt.addr2 = 0x040404 ∧ t.pkt.pcmd = 0x3030 := by
  decide +kernel

/-- DEC-1: the reference frame. -/
theorem test_decode_DEC1 :
    let t := after (exec .decode (onBits .decode dec1 243)) State.reset
    t.code = .ok ∧ t.preRun = 12 ∧ t.flen = 23 ∧ t.tlen = 16 ∧ t.dlen = 8 ∧ t.pkt.header = 0x14 ∧
      t.pkt.addr2 = 0x041A2B ∧ t.pkt.pcmd = 0x30C9 ∧ t.pkt.present = 0x84 ∧ t.pkt.pcons = 7 := by
  decide +kernel

/-- DEC-5: a wrong checksum byte, after the three stages before it have written their buffers. -/
theorem test_decode_DEC5 :
    let t := after (exec .decode (onBits .decode (dec1.set 0x1A 0x54) 243)) State.reset
    t.code = .checksumError ∧ t.flen = 23 ∧ t.tlen = 16 ∧ t.dlen = 8 ∧ t.pkt.csum = 1 ∧ t.pkt.pcons = 0 ∧
      t.pkt.present = 0 := by
  decide +kernel

/-- CTL-1. -/
theorem test_nop_CTL1 :
    let s := { placed [.write 0 0x00] with code := .syncError, done := true }
    (after (step s) State.reset).status = 0x12 := by
  decide +kernel

/-- CTL-2, on the fields that CLEAR writes and on FLEN, which it keeps. -/
theorem test_clear_CTL2 :
    let s := { placed [.write 0 0x0F] with
      code := .eopError, done := true, preRun := 12, flen := 23, irqEn := true
      pkt := { PacketGroup.zero with pktValid := true, pcmd := 0x30C9 } }
    let t := after (step s) State.reset
    t.status = 0x00 ∧ t.preRun = 0 ∧ t.pkt.present = 0 ∧ t.pkt.pcmd = 0 ∧ t.flen = 23 ∧ t.irqEn = true := by
  decide +kernel

/-- CTL-3 to CTL-5: illegal opcodes. -/
theorem test_illegal_CTL3 : (after (step (placed [.write 0 0x06])) State.reset).status = 0x17 := by decide +kernel

/-- CTL-9: STATUS while SYNC is pending. -/
theorem test_busy_CTL9 :
    let s := { placed [.write 0 0x02] with code := .checksumError, done := true, inLen := 243 }
    (after (step s) State.reset).busRead 0x0002 = 0x25 := by
  decide +kernel

/-- CTL-12: one byte of IN_LEN. -/
theorem test_length_CTL12 :
    (after (step { placed [.write 4 0x01] with inLen := 0x00F3 }) State.reset).inLen = 0x01F3 := by decide +kernel

/-- CTL-14: the length check at issue. -/
theorem test_length_CTL14 :
    let t := after (step { placed [.write 0 0x01] with inLen := 0x2001 }) State.reset
    t.status = 0x18 ∧ t.pending = none := by
  decide +kernel

/-- The placed word is what the next step runs. -/
theorem test_placed_word :
    (after (step (State.reset.withFetchWord 8 0x02)) State.reset).pending = some .sync := by decide +kernel

/-- LOADBITS of SYN-1: its IBUF bytes and its length (PRG-5). -/
theorem test_loadbits_SYN1 :
    expand (.loadBits [false, true, false, true, false, true, true, true, true, true, true, true, true, true,
      false, false, false, false, false, false, false, false, false, true]) =
    [.write 0x1000 0x57, .write 0x1001 0xFC, .write 0x1002 0x01, .write 0x0004 0x00, .write 0x0005 0x18] := by
  decide +kernel

/-- The `v` of an R16 and of an R24 (PRG-1: PCMD = 30 C9, ADDR2 = 04 1A 2B). -/
theorem test_read_values :
    HostOp.value (.r16 0x0022) [(0x0023, 0xC9), (0x0022, 0x30)] = some (.half 0x30C9) ∧
      HostOp.value (.r24 0x001C) [(0x001E, 0x2B), (0x001D, 0x1A), (0x001C, 0x04)] = some (.packetAddr 0x041A2B) := by
  decide

/-! ## Witnesses for the hypotheses of the statements -/

theorem witness_DecodeOfEncodeGivesTheCommand : Instr.wf .clear = true := rfl

theorem witness_DecodedBytesAreTheEncoding : decode [0x0F, 0x01] = .ok (.clear, [0x01]) := by decide

theorem witness_IllegalOpcodesAreRejectedAtOnce :
    (placed [.write 0 0x06]).order = .write 0x0000 0x06 :: [] ∧ (placed [.write 0 0x06]).pending = none ∧
      (0x06 ≤ (0x06 : Byte).toNat ∧ (0x06 : Byte).toNat ≤ 0x0E) ∧ (0x06 ≤ (0x0E : Byte).toNat ∧ (0x0E : Byte).toNat ≤ 0x0E) ∧
      0x10 ≤ (0x10 : Byte).toNat ∧ 0x10 ≤ (0xFF : Byte).toNat ∧
      ({ placed [.write 0 0xFF] with pending := some .parse } : State).pending ≠ none ∧
      (placed [.write 0 0x00]).order = .write 0x0000 0x00 :: [] := by decide

theorem witness_StepRunsTheDecodedCommand :
    (placed [.write 0 0x05]).order = .write 0x0000 0x05 :: [] ∧ (placed [.write 0 0x05]).pending = none ∧
      decode [0x05] = .ok (.parse, []) ∧ Instr.wf .parse = true := by decide

theorem witness_EngineStepRunsThePendingCommand :
    (onFrame []).pending = some .extract ∧ (onFrame []).order = [] ∧
      ({ onFrame [] with order := [.engine] } : State).order = .engine :: [] := by decide

theorem witness_PlacedWordRunsNext : decodeTableWord 8 0x01 = some .decode ∧ decodeTableWord 8 0x0F = some .clear := by
  decide

theorem witness_ResetAbandonsEverything :
    ({ onFrame [0xFF] with order := [.reset, .read 2] } : State).order = .reset :: [.read 2] := rfl

theorem witness_ResetStateIsAllZero : (0x0FFF : Addr).toNat < 0x1000 ∧ (0 : Addr).toNat < 0x1000 := by decide

/-- A good state in which SYNC is pending on a stored bitstream. -/
theorem witness_EveryStepKeepsTheStateGood :
    (onBits .sync [0x57, 0xFC, 0x01] 24).Good ∧ ∃ t, step (onBits .sync [0x57, 0xFC, 0x01] 24) = .next t := by
  refine ⟨⟨by decide, by decide, ?_, fun _ _ => rfl, fun c h => ?_, ⟨fun h => ?_, fun _ => rfl, fun h => rfl⟩⟩, _, rfl⟩
  · intro c hc
    simp [onBits, loaded, State.store, State.reset, Memory.write] at hc
    rcases hc with rfl | rfl | rfl <;> decide
  · cases h; decide
  · cases h

theorem witness_NoStepWritesTheParameters : ∃ t, step (onBits .sync [0x57, 0xFC, 0x01] 24) = .next t := ⟨_, rfl⟩

theorem witness_IdleCoreKeepsItsState :
    State.reset.pending = none ∧ State.reset.order = [] ∧ (∀ a v es, (placed [.engine]).order ≠ .write a v :: es) ∧
      ∀ es, (placed [.engine]).order ≠ .reset :: es :=
  ⟨rfl, rfl, fun _ _ _ h => (by cases h), fun _ h => (by cases h)⟩

/-- Each clause at the capacity, and each at 0. -/
theorem witness_IssueAcceptsWithinCapacity :
    let s := { State.reset with inLen := 8192, flen := 1024, tlen := 1024, dlen := 1024 }
    s.pending = none ∧ s.inLen.toNat = s.params.maxBits ∧ s.flen.toNat = 1024 ∧ s.tlen.toNat = 1024 ∧
      s.dlen.toNat = 1024 ∧ State.reset.inLen.toNat ≤ State.reset.params.maxBits := by decide

/-- Each clause just above the capacity. -/
theorem witness_IssueRejectsBadLength :
    let s := { State.reset with inLen := 8193, flen := 1025, tlen := 1025, dlen := 1025 }
    s.pending = none ∧ s.params.maxBits < s.inLen.toNat ∧ 1024 < s.flen.toNat ∧ 1024 < s.tlen.toNat ∧
      1024 < s.dlen.toNat := by decide

theorem witness_NopChangesNothing : (placed [.write 0 0x00]).order = .write 0x0000 0x00 :: [] := rfl

theorem witness_ClearClearsStatusAndResults :
    State.reset.pending = none ∧ (onFrame []).pending ≠ none ∧
      (placed [.write 0 0x0F]).order = .write 0x0000 0x0F :: [] := by decide

/-- Each case, the lengths at the limit and just above it. -/
theorem witness_OpWriteIssuesTheCommand :
    let s := { placed [.write 0 0x01] with inLen := 8192, flen := 1025 }
    s.order = .write 0x0000 0x01 :: [] ∧ s.pending = none ∧
      (0x01, Cmd.decode, s.inLen.toNat, s.params.maxBits) = ((0x01, .decode, 8192, 8192) : Byte × Cmd × Nat × Nat) ∧
      1024 < s.flen.toNat ∧ (0x06 : Byte) ∉ [(0x00 : Byte), 0x01, 0x02, 0x03, 0x04, 0x05, 0x0F] ∧
      (onFrame []).pending ≠ none := by decide

/-- The three answers: no break (SYN-5), a break at once (SYN-6), a break (SYN-8); and the empty stream (SYN-3). -/
theorem witness_SyncCompletes :
    (onBits .sync [0x55, 0x40] 10).pending = some .sync ∧
      IsRunLength 10 (onBits .sync [0x55, 0x40] 10).ibufBit 10 ∧
      IsRunLength 4 (onBits .sync [0xD0] 4).ibufBit 1 ∧
      IsRunLength 4 (onBits .sync [0x60] 4).ibufBit 2 ∧
      IsRunLength 0 (onBits .sync [] 0).ibufBit 0 := by
  refine ⟨rfl, .inr ⟨rfl, fun k h1 h2 => ?_⟩, .inl ⟨by decide, by decide, by decide +kernel, fun k h1 h2 => by omega⟩,
    .inl ⟨by decide, by decide, by decide +kernel, fun k h1 h2 => ?_⟩, .inr ⟨rfl, fun k h1 h2 => by omega⟩⟩
  · revert h1; revert h2; revert k; decide +kernel
  · interval_cases k; decide +kernel

theorem witness_RunLengthIsTheFirstBreak :
    IsRunLength [false, true, true, false].length (fun i => [false, true, true, false].getD i false) 2 :=
  .inl ⟨by decide, by decide, by decide, fun k h1 h2 => by interval_cases k; decide⟩

theorem witness_SyncOutputFitsItsBuffer :
    let s := onBits .sync [0x60] 8192
    s.params.capacityOk = true ∧ s.inLen.toNat ≤ s.params.maxBits ∧ s.pending = some .sync ∧
      ∃ t, exec .sync s = .next t := ⟨by decide, by decide, rfl, _, rfl⟩

/-- The three answers: EXT-2, EXT-4, and the stop byte at the first and at the last place (EXT-5, EXT-1). -/
theorem witness_ExtractCompletes :
    let s1 := onFrame [0xFF, 0x00, 0x33, 0x55]
    let s2 := onFrame [0xFF, 0x00, 0x33, 0x55, 0x53]
    let s3 := onFrame [0xFF, 0x00, 0x33, 0x55, 0x53, 0x35]
    let s4 := onFrame [0xFF, 0x00, 0x33, 0x55, 0x53, 0xAA, 0x35]
    s1.pending = some .extract ∧ ¬SyncWordMatches 4 s1.fbuf ∧ SyncWordMatches 5 s2.fbuf ∧
      (∀ q, 5 ≤ q → q < 5 → s2.fbuf q ≠ 0x35) ∧ SyncWordMatches 6 s3.fbuf ∧ IsFirstStop 6 s3.fbuf 5 ∧
      SyncWordMatches 7 s4.fbuf ∧ IsFirstStop 7 s4.fbuf 6 := by
  refine ⟨rfl, fun h => absurd h.1 (by decide), by unfold SyncWordMatches; decide +kernel, fun q h1 h2 => by omega,
    by unfold SyncWordMatches; decide +kernel, ⟨by decide, by decide, by decide +kernel, fun q h1 h2 => by omega⟩,
    by unfold SyncWordMatches; decide +kernel, ⟨by decide, by decide, by decide +kernel, fun q h1 h2 => ?_⟩⟩
  interval_cases q; decide +kernel

theorem witness_AlteredSyncByteIsASyncError :
    ([0xFF, 0x00, 0x33, 0x55, 0x53] : Bytes)[4]? ≠ some 0x35 ∧ ([0xFF, 0x00, 0x33, 0x55, 0x53] : Bytes)[0]? ≠ some 0xFE := by
  decide

/-- A bad last symbol (MAN-2), a bad first one (MAN-3), all good (MAN-4), and no symbol at all (MAN-5). -/
theorem witness_MdecodeCompletes :
    (onSymbols [0xAA, 0xAB]).pending = some .mdecode ∧
      (onSymbols [0xAA, 0xAB]).tbuf 1 ∉ (onSymbols [0xAA, 0xAB]).params.mt.toList ∧
      (onSymbols [0x00, 0xAA]).tbuf 0 ∉ (onSymbols [0x00, 0xAA]).params.mt.toList ∧
      (∀ i, i < 2 → IsNibble Config.defaultMt ((onSymbols [0x55, 0xAA, 0x35]).tbuf i) (if i = 0 then 15 else 0)) ∧
      (onSymbols []).tlen = 0 := by
  refine ⟨rfl, by decide +kernel, by decide +kernel, fun i h => ?_, rfl⟩
  interval_cases i
  · exact ⟨by decide +kernel, by decide +kernel⟩
  · exact ⟨by decide +kernel, by decide +kernel⟩

theorem witness_ManchesterRoundTrip :
    Config.defaults.symbolsDistinct = true ∧ (0x35 : Byte) ∉ Config.defaults.mt.toList := by decide +kernel

/-- PAR-2. -/
theorem witness_ParseChecksumFailure :
    let s := onPacket [0x14, 0x04, 0x1A, 0x2B, 0x30, 0xC9, 0x00, 0xAB]
    s.pending = some .parse ∧ byteSum s.dlen.toNat s.dbuf % 256 ≠ 0 := by decide +kernel

/-- PAR-1 with no payload, and PAR-6 with one. -/
theorem witness_ParseCompletes :
    let s := onPacket [0x14, 0x04, 0x1A, 0x2B, 0x30, 0xC9, 0x00, 0xAA]
    let u := onPacket [0x17, 0x04, 0x1A, 0x2B, 0x11, 0x22, 0x30, 0xC9, 0x02, 0xDE, 0xAD, 0xE7]
    s.pending = some .parse ∧ byteSum s.dlen.toNat s.dbuf % 256 = 0 ∧ 1 ≤ s.dlen.toNat ∧
      (packetLayout s.params s.dbuf).payloadEnd ≤ s.dlen.toNat ∧ byteSum u.dlen.toNat u.dbuf % 256 = 0 ∧
      (packetLayout u.params u.dbuf).payloadEnd ≤ u.dlen.toNat := by decide +kernel

/-- The packets that end inside the header (PAR-3), address 0 (PAR-4), 1 (PAR-12), 2, parameter 0, parameter 1, the command
(PAR-14) and the length byte (PAR-13). -/
theorem witness_ParseCutFieldIsMalformed :
    ∀ c ∈ ([([], 0), ([0x00], 1), ([0x3C, 0x10, 0x00, 0xB4], 4), ([0x14, 0xEC], 1), ([0x16, 0xEA, 0x00, 0x00], 4),
        ([0x15, 0xEB, 0x00, 0x00], 4), ([0x16, 0x04, 0x1A, 0x2B, 0x11, 0x90], 5),
        ([0x14, 0x04, 0x1A, 0x2B, 0x30, 0x73], 6)] : List (Bytes × Nat)),
      let s := onPacket c.1
      s.pending = some .parse ∧ byteSum s.dlen.toNat s.dbuf % 256 = 0 ∧
        CutAt (packetLayout s.params s.dbuf) s.dlen.toNat c.2 := by
  unfold CutAt; decide +kernel

/-- PAR-7 and PAR-7T. -/
theorem witness_ParseShortPayload :
    let s := onPacket [0x14, 0x04, 0x1A, 0x2B, 0x30, 0xC9, 0x05, 0xDE, 0xAD, 0x1A]
    let u := { s with params := { Config.defaults with payloadShortfall := .truncate } }
    s.pending = some .parse ∧ byteSum s.dlen.toNat s.dbuf % 256 = 0 ∧ 1 ≤ s.dlen.toNat ∧
      (packetLayout s.params s.dbuf).payload ≤ s.dlen.toNat ∧ s.dlen.toNat < (packetLayout s.params s.dbuf).payloadEnd ∧
      s.params.payloadShortfall = .malformed ∧ u.params.payloadShortfall = .truncate ∧
      u.dlen.toNat < (packetLayout u.params u.dbuf).payloadEnd := by decide +kernel

/-- The values of PAR-6. -/
def par6 : PacketValues where
  header := 0x17
  addr0 := 0
  addr1 := 0
  addr2 := 0x041A2B
  param0 := 0x11
  param1 := 0x22
  pcmd := 0x30C9
  payload := [0xDE, 0xAD]

theorem witness_WellFormedPacketRoundTrip :
    let s := onPacket [0x17, 0x04, 0x1A, 0x2B, 0x11, 0x22, 0x30, 0xC9, 0x02, 0xDE, 0xAD, 0xE7]
    s.pending = some .parse ∧ s.params.fieldAssembly = .successive ∧ par6.payload.length ≤ 255 ∧
      s.inputPacket = par6.bytes s.params.hf := by decide +kernel

theorem witness_DecodeCompletes : (onBits .decode dec1 243).pending = some .decode := rfl

theorem witness_DecodeEqualsTheStagesInARow :
    let s := { onBits .decode dec1 243 with pending := none }
    s.params.capacityOk = true ∧ s.pending = none ∧ s.inLen.toNat ≤ s.params.maxBits := by decide

theorem witness_DecodeDependsOnItsInputOnly :
    let s := onBits .decode [0x60] 4
    let u := { onBits .decode [0x6F] 4 with irqEn := true, flen := 9 }
    s.pending = some .decode ∧ u.pending = some .decode ∧ s.params = u.params ∧ s.inLen = u.inLen ∧
      (∀ i, i < s.inLen.toNat → s.ibufBit i = u.ibufBit i) ∧ (∃ t, exec .decode s = .next t) ∧
      ∃ t, exec .decode u = .next t :=
  ⟨rfl, rfl, rfl, rfl, by decide +kernel, ⟨_, rfl⟩, ⟨_, rfl⟩⟩

theorem witness_DecodeTwiceGivesTheSameState :
    (onBits .decode dec1 243).pending = some .decode ∧ (onBits .decode dec1 243).inLen.toNat ≤ 8192 ∧
      ∃ t, exec .decode (onBits .decode dec1 243) = .next t := ⟨rfl, by decide, _, rfl⟩

/-- No preamble (DEC-8), the one-bit preamble (DEC-9), and 01. -/
theorem witness_PreambleAlignsTheFrame : IsPreamble [] ∧ IsPreamble [true] ∧ IsPreamble [false, true] := by
  refine ⟨⟨fun k h1 h2 => ?_, fun h => absurd rfl h⟩, ⟨fun k h1 h2 => ?_, fun _ => rfl⟩, ⟨fun k h1 h2 => ?_, fun _ => rfl⟩⟩
  · simp at h2
  · simp at h2; omega
  · simp at h2; interval_cases k; decide

/-- The values of PAR-1. -/
def par1 : PacketValues where
  header := 0x14
  addr0 := 0
  addr1 := 0
  addr2 := 0x041A2B
  param0 := 0
  param1 := 0
  pcmd := 0x30C9
  payload := []

/-- DEC-1 is a well-formed frame: its preamble, and its trailing junk byte and bits. -/
theorem witness_WellFormedFrameDecodes :
    let s := onBits .decode dec1 243
    let pre := [false, true, false, true, false, true, false, true, false, true]
    s.pending = some .decode ∧ s.params.fieldAssembly = .successive ∧ s.params.symbolsDistinct = true ∧
      0x35 ∉ (par1.bytes s.params.hf).flatMap (symbolsOf s.params.mt) ∧ par1.payload.length ≤ 255 ∧ IsPreamble pre ∧
      s.inputBits = pre ++ frameBits ((par1.bytes s.params.hf).flatMap (symbolsOf s.params.mt)) ++
        (framed 0x12 ++ [true, false, true]) := by
  refine ⟨rfl, rfl, by decide +kernel, by decide +kernel, by decide, ⟨fun k h1 h2 => ?_, fun _ => rfl⟩, by decide +kernel⟩
  simp at h2; interval_cases k <;> decide

theorem witness_GatedFieldsAreCounted :
    ∃ x, parseFields Config.defaults [0x14, 0x04, 0x1A, 0x2B, 0x30, 0xC9, 0x00, 0xAA] = .ok (x, 7) := ⟨_, rfl⟩

theorem witness_EngineStepFinishesEveryCommand :
    (onBits .decode dec1 243).pending = some .decode ∧ (onBits .sync [] 0).pending = some .sync ∧
      (onFrame []).pending = some .extract ∧ (onSymbols []).pending = some .mdecode ∧
      (onPacket []).pending = some .parse := ⟨rfl, rfl, rfl, rfl, rfl⟩

/-- For the clauses about good states, SYNC has the state of witness_EveryStepKeepsTheStateGood. -/
theorem witness_CommandsKeepTheirInputs :
    (∃ t, exec .extract (onFrame [0xFF]) = .next t) ∧ (∃ t, exec .mdecode (onSymbols [0xAA, 0xA9]) = .next t) ∧
      (∃ t, exec .sync (onBits .sync [0x57, 0xFC, 0x01] 24) = .next t) ∧
      (∃ t, exec .parse (onPacket [0]) = .next t) ∧ (onFrame [0xFF]).Good := by
  refine ⟨⟨_, rfl⟩, ⟨_, rfl⟩, ⟨_, rfl⟩, ⟨_, rfl⟩,
    ⟨by decide, by decide, fun c hc => ?_, fun _ _ => rfl, fun c h => ?_, ⟨fun h => ?_, fun _ => rfl, fun h => rfl⟩⟩⟩
  · simp [onFrame, loaded, State.store, State.reset, Memory.write] at hc
    rcases hc with rfl
    decide
  · cases h; decide
  · cases h

theorem witness_BusyWritesAreIgnored :
    ({ onFrame [] with order := [.write 0 0x0F] } : State).order = .write 0 0x0F :: [] ∧
      ({ onFrame [] with order := [.write 0 0x0F] } : State).pending ≠ none := by decide

theorem witness_BusyReadsShowTheCommittedState :
    State.reset.pending = none ∧ exec Cmd.sync.instr State.reset = .next { State.reset with pending := some .sync } ∧
      ({ State.reset with pending := some .sync } : State).pending ≠ none ∧ (0xFFFF : Addr) ≠ 0x0002 :=
  ⟨rfl, rfl, by decide, by decide⟩

theorem witness_ReadsHaveNoSideEffect : (placed [.read 0x0002]).order = .read 0x0002 :: [] := rfl

theorem witness_LengthBytesAreWrittenApart :
    (placed []).pending = none ∧ (placed [.write 4 0xFF]).order = .write 0x0004 0xFF :: [] ∧
      (placed [.write 5 0x00]).order = .write 0x0005 0x00 :: [] ∧
      (placed [.write 6 0xFF]).order = .write 0x0006 0xFF :: [] ∧
      (placed [.write 7 0x00]).order = .write 0x0007 0x00 :: [] ∧
      (placed [.write 8 0xFF]).order = .write 0x0008 0xFF :: [] ∧
      (placed [.write 9 0x00]).order = .write 0x0009 0x00 :: [] ∧
      (placed [.write 10 0xFF]).order = .write 0x000A 0xFF :: [] ∧
      (placed [.write 11 0x00]).order = .write 0x000B 0x00 :: [] := ⟨rfl, rfl, rfl, rfl, rfl, rfl, rfl, rfl, rfl⟩

theorem witness_CtrlHoldsTheInterruptEnable :
    (placed [.write 1 0x01]).order = .write 0x0001 0x01 :: [] ∧ (placed [.write 1 0x01]).pending = none ∧
      ∃ t, exec .sync (onBits .sync [0x60] 4) = .next t := ⟨rfl, rfl, _, rfl⟩

theorem witness_StatusByteShowsCodeDoneBusy : (placed [.read 2]).order = .read 0x0002 :: [] := rfl

theorem witness_StatusWriteClearsDone :
    (placed [.write 2 0x10]).order = .write 0x0002 0x10 :: [] ∧ (placed [.write 2 0x10]).pending = none ∧
      (0x10 : Byte).getLsbD 4 = true ∧ (0xEF : Byte).getLsbD 4 = false := by decide

/-- Each range at its ends; the IBUF window above a MAX_BITS of 24. -/
theorem witness_ReservedAddressesReadZero :
    (0x0003 : Addr) ∈ [(0x0003 : Addr), 0x0017, 0x001B, 0x001F, 0x0027] ∧ 0x0028 ≤ (0x0028 : Addr).toNat ∧
      (0x00FF : Addr).toNat ≤ 0x00FF ∧ 0x01FF ≤ (0x01FF : Addr).toNat ∧ (0x0FFF : Addr).toNat ≤ 0x0FFF ∧
      0x2000 ≤ (0x2000 : Addr).toNat ∧ 0x2000 ≤ (0xFFFF : Addr).toNat ∧
      (let s := { placed [.write 0x1003 1] with params := { Config.defaults with maxBits := 24 } };
        0x1000 + s.params.maxBits / 8 ≤ (0x1003 : Addr).toNat ∧ (0x13FF : Addr).toNat ≤ 0x13FF ∧
        s.order = .write 0x1003 1 :: []) := by decide

theorem witness_ReadOnlyWritesAreIgnored :
    (placed [.write 0x10 0x55]).order = .write 0x0010 0x55 :: [] ∧ 0x000C ≤ (0x000C : Addr).toNat ∧
      (0x0026 : Addr).toNat ≤ 0x0026 ∧ 0x0100 ≤ (0x0100 : Addr).toNat ∧ (0x01FE : Addr).toNat ≤ 0x01FE := by decide

theorem witness_BufferWriteThenReadGivesTheByte :
    (placed [.write 0x1000 7]).order = .write 0x1000 7 :: [] ∧ (placed [.write 0x1000 7]).pending = none ∧
      0x1000 ≤ (0x1000 : Addr).toNat ∧ (0x13FF : Addr).toNat < 0x1000 + (placed []).params.maxBits / 8 ∧
      0x1400 ≤ (0x1400 : Addr).toNat ∧ (0x1FFF : Addr).toNat ≤ 0x1FFF := by decide

theorem witness_InputBitsArePackedMsbFirst :
    State.reset.params.capacityOk = true ∧ 0 < State.reset.params.maxBits ∧ 8191 < State.reset.params.maxBits ∧
      0 < 1024 ∧ 1023 < 1024 := by decide

/-- The offsets at both ends of the address space, and the ends of PAYLOAD. -/
theorem witness_ResultsReadBigEndian :
    (placed [.read 0x0000, .read 0x0001]).order = expand (.r16 0x0000) ∧
      (placed [.read 0xFFFE, .read 0xFFFF]).order = expand (.r16 0xFFFE) ∧
      (placed [.read 0x0014, .read 0x0015, .read 0x0016]).order = expand (.r24 0x0014) ∧ 0 < 255 ∧ 254 < 255 := by decide

theorem witness_LoadBitsLoadsTheBits :
    let bits := [false, true, true]
    let s := placed (expand (.loadBits bits))
    s.params.capacityOk = true ∧ bits.length ≤ s.params.maxBits ∧ s.pending = none ∧
      s.order = expand (.loadBits bits) := ⟨by decide, by decide, rfl, rfl⟩

theorem witness_RawMessageIsTheFrameMsbFirst : 0 < (onFrame [0xFF]).flen.toNat := by decide

theorem witness_WaitPollsStatus :
    (placed [.wait 0]).order = .wait 0 :: [] ∧ (placed [.wait 0]).pending = none ∧
      ({ onFrame [] with order := [.wait 1] } : State).order = .wait (0 + 1) :: [] ∧
      ({ onFrame [] with order := [.wait 1] } : State).pending = some .extract := ⟨rfl, rfl, rfl, rfl⟩

end Sys2Proof.Tests
end

section
/-! SUPPORT. What the registers with a view of their own read as, bit by bit or as one number, and what a write to CTRL and a
read of any address do as a step. -/

namespace Sys2Proof.Machine

/-! ## Bits placed in a byte -/

@[simp] theorem toNat_bitByte (b : Bool) : (bitByte b).toNat = b.toNat := by cases b <;> rfl

/-- A bit shifted to place `k` of a byte is bit `k` of it, and the only one. -/
theorem getLsbD_bitByte_shiftLeft (b : Bool) {k : Nat} (hk : k < 8) (i : Nat) :
    (bitByte b <<< k).getLsbD i = (i == k && b) := by
  cases b with
  | false => simp [bitByte]
  | true =>
    rw [show bitByte true = 1#8 from rfl, BitVec.getLsbD_shiftLeft, BitVec.getLsbD_one, Bool.and_true, Bool.eq_iff_iff]
    simp only [Bool.and_eq_true, Bool.not_eq_true', decide_eq_true_eq, decide_eq_false_iff_not, beq_iff_eq]
    omega

/-- A bit as a byte is bit 0 of it, and the only one. -/
theorem getLsbD_bitByte (b : Bool) (i : Nat) : (bitByte b).getLsbD i = (i == 0 && b) := by
  simpa using getLsbD_bitByte_shiftLeft b (k := 0) (by omega) i

/-- A bit shifted to place `k` above the value of a byte adds `2 ^ k`. -/
theorem toNat_or_bitByte_shiftLeft {x : Byte} {k : Nat} (b : Bool) (hk : k < 8) (hx : x.toNat < 2 ^ k) :
    (x ||| bitByte b <<< k).toNat = x.toNat + 2 ^ k * b.toNat := by
  have hbit : b.toNat * 2 ^ k < 2 ^ 8 :=
    calc b.toNat * 2 ^ k ≤ 1 * 2 ^ k := Nat.mul_le_mul_right _ (Bool.toNat_le b)
      _ = 2 ^ k := Nat.one_mul _
      _ < 2 ^ 8 := Nat.pow_lt_pow_right (by decide) hk
  rw [BitVec.toNat_or, BitVec.toNat_shiftLeft, toNat_bitByte, Nat.shiftLeft_eq, Nat.mod_eq_of_lt hbit,
    Nat.or_comm, ← Nat.shiftLeft_eq, ← Nat.shiftLeft_add_eq_or_of_lt hx, Nat.shiftLeft_eq, Nat.mul_comm, Nat.add_comm]

/-! ## The views -/

/-- CODE has the values 0 to 8 (60_exceptions.md R154). -/
theorem Code.bits_le (c : Code) : c.bits.toNat ≤ 8 := by cases c <;> decide

/-- STATUS as one number (10_state.md R25). -/
theorem State.toNat_status (s : State) :
    s.status.toNat = s.code.bits.toNat + 16 * s.done.toNat + 32 * s.pending.isSome.toNat := by
  have hcode := s.code.bits_le
  have hdone := Bool.toNat_le s.done
  have hsw : (s.code.bits.setWidth 8).toNat = s.code.bits.toNat := by
    rw [BitVec.toNat_setWidth, Nat.mod_eq_of_lt (by omega)]
  have hlow : (s.code.bits.setWidth 8 ||| bitByte s.done <<< 4).toNat = s.code.bits.toNat + 2 ^ 4 * s.done.toNat := by
    rw [toNat_or_bitByte_shiftLeft _ (by omega) (by omega), hsw]
  rw [State.status, toNat_or_bitByte_shiftLeft _ (by omega) (by omega), hlow]
  rfl

/-- BUSY is bit 5 of STATUS (10_state.md R25). -/
theorem State.getLsbD_status_five (s : State) : s.status.getLsbD 5 = s.pending.isSome := by
  rw [State.status, BitVec.getLsbD_or, BitVec.getLsbD_or, getLsbD_bitByte_shiftLeft _ (by omega),
    getLsbD_bitByte_shiftLeft _ (by omega), BitVec.getLsbD_setWidth, BitVec.getLsbD_of_ge _ 5 (by omega)]
  simp [State.busy]

/-- TYPE bit by bit (10_state.md R34). -/
theorem PacketGroup.getLsbD_typeByte (k : PacketGroup) (i : Nat) : k.typeByte.getLsbD i =
    ((i == 0 && k.flags.getLsbD 5) || (i == 1 && k.flags.getLsbD 3) || (i == 2 && k.flags.getLsbD 4) ||
      (i == 3 && k.flags.getLsbD 6)) := by
  simp only [PacketGroup.typeByte, BitVec.getLsbD_or, getLsbD_bitByte]
  rw [getLsbD_bitByte_shiftLeft _ (by omega), getLsbD_bitByte_shiftLeft _ (by omega),
    getLsbD_bitByte_shiftLeft _ (by omega)]

/-! ## The registers on the bus -/

/-- A read below 0x0028 reads a register (20_memory.md R54). -/
theorem busRead_register (s : State) {a : Addr} (h : a.toNat < 0x28) : s.busRead a = s.readRegister a.toNat := by
  unfold State.busRead
  exact if_pos h

/-- A write below 0x0028 goes to a register (20_memory.md R54). -/
theorem busStore_register (s : State) {a : Addr} (v : Byte) (h : a.toNat < 0x28) :
    s.busStore a v = s.writeRegister a.toNat v := by
  unfold State.busStore
  exact if_pos h

theorem busRead_ctrl (s : State) : s.busRead 0x0001 = bitByte s.irqEn := busRead_register s (by decide)

theorem busRead_status (s : State) : s.busRead 0x0002 = s.status := busRead_register s (by decide)

theorem busRead_type (s : State) : s.busRead 0x0012 = s.pkt.typeByte := busRead_register s (by decide)

theorem busStore_ctrl (s : State) (v : Byte) : s.busStore 0x0001 v = { s with irqEn := v.getLsbD 0 } :=
  busStore_register s v (by decide)

/-- A host read, as a step: whatever the address, the byte goes to the host and nothing else changes (20_memory.md R60). -/
theorem step_read {s : State} {a : Addr} {es : List Event} (ho : s.order = .read a :: es) :
    step s = .next (hostRead a { s with order := es }) := by
  rw [step_eq, ho]
  rfl

/-- What an address reads does not depend on the events still to come. -/
@[simp] theorem busRead_order (s : State) (es : List Event) (a : Addr) :
    ({ s with order := es } : State).busRead a = s.busRead a := rfl

end Sys2Proof.Machine
end

section
/-! The statements about CTRL, STATUS and TYPE (10_state.md R22, R25, R34, R49). -/

namespace Sys2Proof.Machine

/-- Settles O48: a write step to CTRL replaces IRQ_EN alone, and every command keeps it (`resultOf_keeps`). -/
theorem ctrlHoldsTheInterruptEnable : Obligations.CtrlHoldsTheInterruptEnable := by
  refine ⟨fun s v es => ⟨?reads, rfl, fun ho hp => ?written⟩, fun i s t h => ?kept, ?resetReads, rfl⟩
  case reads => rw [busRead_ctrl, toNat_bitByte]
  case written =>
    refine ⟨{ s with order := es, irqEn := v.getLsbD 0 }, ?_, rfl, rfl⟩
    rw [step_write ho hp (by decide), busStore_ctrl]
  case kept =>
    rw [exec_eq] at h
    cases h
    exact (resultOf_keeps i s).irqEn
  case resetReads =>
    rw [busRead_ctrl]
    rfl

/-- Settles O50: STATUS is the sum of its three fields, since each lies above the values of those before it. -/
theorem statusByteShowsCodeDoneBusy : Obligations.StatusByteShowsCodeDoneBusy := by
  refine ⟨fun s => ⟨?number, s.code.bits_le, fun es ho => ?noSideEffect⟩, ?resetBusy⟩
  case number => rw [busRead_status, s.toNat_status]
  case noSideEffect => rw [step_read ho, hostRead, busRead_order]
  case resetBusy =>
    rw [busRead_status, State.getLsbD_status_five]
    rfl

/-- Settles O51: each flag bit of TYPE is placed at an index of its own. -/
theorem typeShowsFourFlagBits : Obligations.TypeShowsFourFlagBits := by
  refine ⟨fun s i => ?bits, ?resetReads⟩
  case bits => rw [busRead_type, PacketGroup.getLsbD_typeByte]
  case resetReads =>
    rw [busRead_type]
    decide

end Sys2Proof.Machine
end

section
/-! SUPPORT. The four length registers as one: the value each holds, and what a write step to either of its bytes makes of it. And
what a host read leaves on the bus. -/

namespace Sys2Proof.Machine

/-! ## The length registers -/

/-- The value of a length register (20_memory.md R54). -/
def State.lengthOf (s : State) : LengthRegister → Half
  | .inLen => s.inLen
  | .flen => s.flen
  | .tlen => s.tlen
  | .dlen => s.dlen

/-- The state with a length register replaced, and nothing else. -/
def State.withLength (s : State) (r : LengthRegister) (x : Half) : State :=
  match r with
  | .inLen => { s with inLen := x }
  | .flen => { s with flen := x }
  | .tlen => { s with tlen := x }
  | .dlen => { s with dlen := x }

/-- A write to the first byte of a length register goes to its bits 15:8 (20_memory.md R56). -/
theorem busStore_lengthHi (s : State) (r : LengthRegister) (v : Byte) :
    s.busStore r.offset v = s.withLength r (withHi (s.lengthOf r) v) := by
  cases r <;> exact busStore_register s v (by decide)

/-- A write to the second byte of a length register goes to its bits 7:0 (20_memory.md R56). -/
theorem busStore_lengthLo (s : State) (r : LengthRegister) (v : Byte) :
    s.busStore (r.offset + 1) v = s.withLength r (withLo (s.lengthOf r) v) := by
  cases r <;> exact busStore_register s v (by decide)

section
variable {s : State} {v : Byte} {es : List Event} (r : LengthRegister)

/-- A write step to the first byte of a length register: the register's new value as a number, nothing else changed. -/
theorem step_write_lengthHi (hp : s.pending = none) (ho : s.order = .write r.offset v :: es) :
    ∃ x, step s = .next (({ s with order := es } : State).withLength r x) ∧
      x.toNat = v.toNat * 256 + (s.lengthOf r).toNat % 256 := by
  have hoffset : r.offset ≠ 0 := by cases r <;> decide
  refine ⟨withHi (s.lengthOf r) v, ?_, toNat_withHi _ v⟩
  rw [step_write ho hp hoffset, busStore_lengthHi]
  rfl

/-- A write step to the second byte of a length register: the register's new value as a number, nothing else changed. -/
theorem step_write_lengthLo (hp : s.pending = none) (ho : s.order = .write (r.offset + 1) v :: es) :
    ∃ x, step s = .next (({ s with order := es } : State).withLength r x) ∧
      x.toNat = (s.lengthOf r).toNat / 256 * 256 + v.toNat := by
  have hoffset : r.offset + 1 ≠ 0 := by cases r <;> decide
  refine ⟨withLo (s.lengthOf r) v, ?_, toNat_withLo _ v⟩
  rw [step_write ho hp hoffset, busStore_lengthLo]
  rfl

end

/-! ## Reads -/

/-- What an address reads does not depend on what the host has read (20_memory.md R60). -/
@[simp] theorem busRead_hostRead (a b : Addr) (s : State) : (hostRead a s).busRead b = s.busRead b := rfl

end Sys2Proof.Machine
end

section
/-! The statements about the host's accesses (20_memory.md R56, R60, R63). -/

namespace Sys2Proof.Machine

/-- Settles O44: with a command pending, a host write is a step that only takes its event (`step_write_busy`). -/
theorem busyWritesAreIgnored : Obligations.BusyWritesAreIgnored := by
  intro s a v es ho hp
  obtain ⟨c, hc⟩ := Option.ne_none_iff_exists'.mp hp
  exact step_write_busy ho hc

/-- Settles O46: the step is a host read (`step_read`), and no address reads from what the host keeps or has yet to do. -/
theorem readsHaveNoSideEffect : Obligations.ReadsHaveNoSideEffect := by
  intro s a es ho
  refine ⟨hostRead a { s with order := es }, step_read ho, ?_, fun b => ?_⟩
  · rw [hostRead, busRead_order]
  · rw [busRead_hostRead, busRead_order]

/-- Settles O47: one argument for the high bytes of the four registers and one for their low bytes. -/
theorem lengthBytesAreWrittenApart : Obligations.LengthBytesAreWrittenApart := fun _ _ _ hp =>
  ⟨step_write_lengthHi .inLen hp, step_write_lengthLo .inLen hp,
    step_write_lengthHi .flen hp, step_write_lengthLo .flen hp,
    step_write_lengthHi .tlen hp, step_write_lengthLo .tlen hp,
    step_write_lengthHi .dlen hp, step_write_lengthLo .dlen hp⟩

end Sys2Proof.Machine
end

section
/-! SUPPORT. The decoder on the opcode bytes, for all commands at once (30_encoding.md R70, R71). -/

namespace Sys2Proof

/-- The law of one command (`Laws.OneOpcode`), read off for any command. -/
theorem commandOf_eq_some_iff (i : Instr) (v : Byte) : commandOf v = some i ↔ v = opcode i := by
  have law : Laws.OneOpcode.Statement i := by
    cases i with
    | nop => exact Laws.OneOpcode.nop
    | decode => exact Laws.OneOpcode.decode
    | sync => exact Laws.OneOpcode.sync
    | extract => exact Laws.OneOpcode.extract
    | mdecode => exact Laws.OneOpcode.mdecode
    | parse => exact Laws.OneOpcode.parse
    | clear => exact Laws.OneOpcode.clear
  exact law.2 v

@[simp] theorem commandOf_opcode (i : Instr) : commandOf (opcode i) = some i :=
  (commandOf_eq_some_iff i _).mpr rfl

/-- Every command is one byte, so its opcode decodes to it whatever follows. -/
@[simp] theorem decode_opcode_cons (i : Instr) (rest : Bytes) : decode (opcode i :: rest) = .ok (i, rest) := by
  rw [decode, commandOf_opcode]

end Sys2Proof
end

section
/-! The statement about the rows of the opcode map (30_encoding.md R71). -/

namespace Sys2Proof

/-- Settles O3: the seven bytes are the opcodes of the seven commands, and an opcode decodes to its command
(`decode_opcode_cons`). -/
theorem opcodeMapRowsDecode : Obligations.OpcodeMapRowsDecode :=
  ⟨decode_opcode_cons .nop [], decode_opcode_cons .decode [], decode_opcode_cons .sync [],
    decode_opcode_cons .extract [], decode_opcode_cons .mdecode [], decode_opcode_cons .parse [],
    decode_opcode_cons .clear []⟩

end Sys2Proof
end

section
/-! SUPPORT. The issue of a command: when the length check rejects it, what the immediate commands do with none pending, and the
host's write to OP as a step (40_command_cycle.md R102, R103). -/

namespace Sys2Proof.Machine

/-! ## One command, with none pending -/

/-- The length check of R103: a command above its capacity is rejected and does not enter PENDING. -/
theorem issue_badLength {c : Cmd} {s : State} (h : capacity c s.params < inputLength c s) :
    issue c s = reject .badLength s := if_pos h

/-- exec of a pending command above its capacity, where none is pending. -/
theorem exec_badLength (c : Cmd) {s : State} (hp : s.pending = none) (h : capacity c s.params < inputLength c s) :
    exec c.instr s = .next (reject .badLength s) := by
  rw [exec_issue hp, issue_badLength h]

/-- An immediate command runs where none is pending (40_command_cycle.md R95). -/
theorem runImmediate_idle {operation : State → State} {s : State} (hp : s.pending = none) :
    runImmediate operation s = operation s := by
  simp [runImmediate, hp]

theorem exec_nop_idle {s : State} (hp : s.pending = none) : exec .nop s = .next s := by
  rw [exec_eq, resultOf, runImmediate_idle hp, id]

theorem exec_clear_idle {s : State} (hp : s.pending = none) : exec .clear s = .next (clearAll s) := by
  rw [exec_eq, resultOf, runImmediate_idle hp]

/-! ## The write to OP as a step -/

/-- The illegal opcodes are the bytes that are no command's opcode (30_encoding.md R72). -/
theorem commandOf_eq_none_iff (v : Byte) : commandOf v = none ↔ ∀ i, v ≠ opcode i := by
  simp only [Option.eq_none_iff_forall_ne_some, ne_eq, commandOf_eq_some_iff]

section
variable {s : State} {v : Byte} {es : List Event}

/-- A host write to OP with none pending is the issue of its byte. -/
theorem step_write_op (ho : s.order = .write 0x0000 v :: es) (hp : s.pending = none) :
    step s = issueOpcode v { s with order := es } := by
  rw [step_eq, ho]
  simp [takeEvent, hostWrite, State.busy, hp]

/-- The write of a command's opcode runs the command. -/
theorem step_write_opcode (i : Instr) (ho : s.order = .write 0x0000 (opcode i) :: es) (hp : s.pending = none) :
    step s = exec i { s with order := es } := by
  rw [step_write_op ho hp, issueOpcode, decode_opcode_cons]

/-- The write of a pending command's opcode is its issue. -/
theorem step_write_pending (c : Cmd) (ho : s.order = .write 0x0000 (opcode c.instr) :: es) (hp : s.pending = none) :
    step s = .next (issue c { s with order := es }) :=
  (step_write_opcode c.instr ho hp).trans (exec_issue hp)

/-- The write of a byte that is no command's opcode is rejected at once (46_control.md R153). -/
theorem step_write_illegal (hv : ∀ i, v ≠ opcode i) (ho : s.order = .write 0x0000 v :: es) (hp : s.pending = none) :
    step s = .next (reject .illegalCmd { s with order := es }) := by
  rw [step_write_op ho hp, issueOpcode, decode, (commandOf_eq_none_iff v).mpr hv]

end

end Sys2Proof.Machine
end

section
/-! The statements about the issue of a command (40_command_cycle.md R102, R103, R162). -/

namespace Sys2Proof.Machine

/-- Settles O18: a write to OP is ignored while busy (`step_write_busy`), runs its command where its byte is an opcode
(`step_write_opcode`) and is rejected where it is not (`step_write_illegal`); each row of the list is the opcode, the input
length and the capacity of its command, so the length test is that of `issue`. -/
theorem opWriteIssuesTheCommand : Obligations.OpWriteIssuesTheCommand := by
  intro s v es ho
  refine ⟨fun hp => ?busy, fun hp => ⟨?nop, ?clear, fun hv => ?illegal, fun c length limit hrow => ?pending⟩⟩
  case busy =>
    obtain ⟨c, hc⟩ := Option.ne_none_iff_exists'.mp hp
    exact step_write_busy ho hc
  case nop =>
    rintro rfl
    exact (step_write_opcode .nop ho hp).trans (exec_nop_idle hp)
  case clear =>
    rintro rfl
    exact (step_write_opcode .clear ho hp).trans (exec_clear_idle hp)
  case illegal =>
    have hnone : ∀ i, v ≠ opcode i := by
      rintro i rfl
      cases i <;> exact hv (by decide)
    exact step_write_illegal hnone ho hp
  case pending =>
    obtain ⟨rfl, rfl, rfl⟩ : v = opcode c.instr ∧ length = inputLength c s ∧ limit = capacity c s.params := by
      simp only [List.mem_cons, List.not_mem_nil, Prod.mk.injEq, or_false] at hrow
      rcases hrow with ⟨rfl, rfl, rfl, rfl⟩ | ⟨rfl, rfl, rfl, rfl⟩ | ⟨rfl, rfl, rfl, rfl⟩ | ⟨rfl, rfl, rfl, rfl⟩ |
        ⟨rfl, rfl, rfl, rfl⟩ <;> exact ⟨rfl, rfl, rfl⟩
    exact step_write_pending c ho hp

/-- Settles O17: one argument for the five commands (`exec_badLength`), each with its own length and capacity. -/
theorem issueRejectsBadLength : Obligations.IssueRejectsBadLength :=
  ⟨fun _ hp => ⟨exec_badLength .decode hp, exec_badLength .sync hp, exec_badLength .extract hp,
    exec_badLength .mdecode hp, exec_badLength .parse hp⟩, rfl⟩

end Sys2Proof.Machine
end

section
/-! SUPPORT. The run length of a bitstream: what the words of the claims (`IsRunLength`) say one at a time, that they name one
number, and that `runLen` is that number (41_sync.md R108). -/

namespace Sys2Proof.Machine

section
variable {n L : Nat} {bit bit' : Nat → Bool}

/-- The run ends at the end of the stream or before it. -/
theorem IsRunLength.le (h : IsRunLength n bit L) : L ≤ n := by
  rcases h with ⟨_, hlt, _, _⟩ | ⟨rfl, _⟩
  · exact hlt.le
  · exact le_rfl

/-- Inside the run no two equal bits follow each other. -/
theorem IsRunLength.alternates (h : IsRunLength n bit L) {k : Nat} (h1 : 1 ≤ k) (hk : k < L) : bit k ≠ bit (k - 1) := by
  rcases h with ⟨_, _, _, halt⟩ | ⟨rfl, halt⟩ <;> exact halt k h1 hk

/-- Where the run ends before the stream does, two equal bits end it. -/
theorem IsRunLength.breaks (h : IsRunLength n bit L) (hL : L < n) : 1 ≤ L ∧ bit L = bit (L - 1) := by
  rcases h with ⟨h1, _, hbreak, _⟩ | ⟨rfl, _⟩
  · exact ⟨h1, hbreak⟩
  · exact absurd hL (lt_irrefl _)

/-- A run length is no longer than another of the same stream: the break of the other would lie inside it. -/
theorem IsRunLength.le_of_isRunLength {M : Nat} (h : IsRunLength n bit L) (h' : IsRunLength n bit M) : L ≤ M := by
  by_contra hlt
  obtain ⟨h1, hbreak⟩ := h'.breaks (by have := h.le; omega)
  exact h.alternates h1 (by omega) hbreak

/-- A stream has one run length only. -/
theorem IsRunLength.unique {M : Nat} (h : IsRunLength n bit L) (h' : IsRunLength n bit M) : L = M :=
  le_antisymm (h.le_of_isRunLength h') (h'.le_of_isRunLength h)

/-- The run length depends on the first `n` bits only. -/
theorem IsRunLength.congr (h : IsRunLength n bit L) (heq : ∀ k, k < n → bit' k = bit k) : IsRunLength n bit' L := by
  rcases h with ⟨h1, hlt, hbreak, halt⟩ | ⟨rfl, halt⟩
  · refine .inl ⟨h1, hlt, ?_, fun k hk1 hk => ?_⟩
    · rw [heq _ hlt, heq _ (by omega), hbreak]
    · rw [heq _ (by omega), heq _ (by omega)]
      exact halt k hk1 hk
  · refine .inr ⟨rfl, fun k hk1 hk => ?_⟩
    rw [heq _ hk, heq _ (by omega)]
    exact halt k hk1 hk

/-- Alternation of the bits from the second on, and of the first two, is alternation of all. -/
theorem alternates_succ (hne : bit 1 ≠ bit 0) (h : ∀ k, 1 ≤ k → k < L → bit (k + 1) ≠ bit (k - 1 + 1)) :
    ∀ k, 1 ≤ k → k < L + 1 → bit k ≠ bit (k - 1) := by
  intro k hk1 hk
  match k with
  | 1 => exact hne
  | k + 2 => exact h (k + 1) (by omega) (by omega)

/-- A bit in front that differs from the first bit of the stream makes the run one longer. -/
theorem IsRunLength.succ (h : IsRunLength n (fun k => bit (k + 1)) L) (hne : bit 1 ≠ bit 0) :
    IsRunLength (n + 1) bit (L + 1) := by
  rcases h with ⟨h1, hlt, hbreak, halt⟩ | ⟨rfl, halt⟩
  · have hshift : bit (L + 1) = bit L := Eq.trans hbreak (congrArg bit (Nat.sub_add_cancel h1))
    exact .inl ⟨by omega, by omega, hshift, alternates_succ hne halt⟩
  · exact .inr ⟨rfl, alternates_succ hne halt⟩

end

/-- The model's run length is a run length in the sense of R108. -/
theorem isRunLength_runLen (bits : Bits) : IsRunLength bits.length (fun i => bits.getD i false) (runLen bits) := by
  match bits with
  | [] => exact .inr ⟨rfl, fun k _ hk => absurd hk (Nat.not_lt_zero k)⟩
  | [_] => exact .inr ⟨rfl, fun k hk1 hk => absurd hk (not_lt_of_ge hk1)⟩
  | a :: b :: rest =>
    rw [runLen_cons_cons]
    by_cases hab : a = b
    · rw [if_pos hab]
      exact .inl ⟨le_rfl, by simp, hab.symm, fun k hk1 hk => absurd hk (not_lt_of_ge hk1)⟩
    · rw [if_neg hab]
      exact (isRunLength_runLen (b :: rest)).succ (bit := fun i => (a :: b :: rest).getD i false) (Ne.symm hab)

end Sys2Proof.Machine
end

section
/-! SUPPORT. SYNC from its input bits to the state it leaves (41_sync.md R109 to R111, R115). -/

namespace Sys2Proof.Machine

/-- Bit `i` of the input of SYNC and DECODE is `IBUF[i]` (40_command_cycle.md R96). -/
theorem State.getD_inputBits (s : State) {i : Nat} (h : i < s.inLen.toNat) : s.inputBits.getD i false = s.ibufBit i := by
  rw [State.inputBits, List.getD_eq_getElem?_getD, List.getElem?_map, List.getElem?_range h]
  rfl

/-- The run length of `IBUF[0 .. IN_LEN)` is that of the input bits. -/
theorem runLen_inputBits {s : State} {L : Nat} (h : IsRunLength s.inLen.toNat s.ibufBit L) : runLen s.inputBits = L := by
  have hrun := isRunLength_runLen s.inputBits
  rw [State.inputBits_length] at hrun
  exact hrun.unique (h.congr fun _ hk => s.getD_inputBits hk)

/-- Data bit `i` of byte `j` of the de-framed stream: bit `i + 1` of chunk `j` (41_sync.md R111; 30_encoding.md R75). -/
theorem getLsbD_deframe (m : Nat) (bits : Bits) {i j : Nat} (hi : i < 8) (hj : j < (deframe m bits).length) :
    ((deframe m bits)[j]).getLsbD i = bits.getD (10 * j + 1 + i) false := by
  rw [deframe_getElem, getLsbD_framedByte _ hi]
  simp only [List.getD_eq_getElem?_getD]
  rw [List.getElem?_take_of_lt (by omega), List.getElem?_drop, Nat.add_right_comm, Nat.add_assoc (10 * j)]

/-- The bytes of the input bits realigned to discard all of the run but its last two bits (41_sync.md R110, R111). -/
def realignedBytes (s : State) : Bytes :=
  deframe ((s.inLen.toNat - (runLen s.inputBits - 2)) / 10) (s.inputBits.drop (runLen s.inputBits - 2))

@[simp] theorem realignedBytes_length (s : State) :
    (realignedBytes s).length = (s.inLen.toNat - (runLen s.inputBits - 2)) / 10 := deframe_length _ _

/-- Data bit `i` of realigned byte `j`, as an input bit. -/
theorem getLsbD_realignedBytes (s : State) {i j : Nat} (hi : i < 8) (hj : j < (realignedBytes s).length) :
    ((realignedBytes s)[j]).getLsbD i = s.ibufBit (runLen s.inputBits - 2 + 10 * j + 1 + i) := by
  have hin : runLen s.inputBits - 2 + (10 * j + 1 + i) < s.inLen.toNat := by
    rw [realignedBytes_length] at hj
    omega
  calc ((realignedBytes s)[j]).getLsbD i
      = (s.inputBits.drop (runLen s.inputBits - 2)).getD (10 * j + 1 + i) false := getLsbD_deframe _ _ hi hj
    _ = s.inputBits.getD (runLen s.inputBits - 2 + (10 * j + 1 + i)) false := by
      simp only [List.getD_eq_getElem?_getD, List.getElem?_drop]
    _ = s.ibufBit (runLen s.inputBits - 2 + (10 * j + 1 + i)) := s.getD_inputBits hin
    _ = s.ibufBit (runLen s.inputBits - 2 + 10 * j + 1 + i) := by simp only [Nat.add_assoc]

/-- SYNC where the stream has no break, or breaks before two bits (41_sync.md R109). -/
theorem completeSync_preambleError {s : State} (h : runLen s.inputBits = s.inLen.toNat ∨ runLen s.inputBits < 2) :
    completeSync s =
      finish .preambleError { s with preRun := BitVec.ofNat 16 (runLen s.inputBits), flen := 0 } := by
  rcases syncFn_cases s.inputBits with ⟨_, e⟩ | ⟨hno, _⟩
  · simp only [completeSync, e, syncCode, writeSync]
  · rw [State.inputBits_length] at hno
    exact absurd h hno

/-- SYNC where the stream breaks after two bits or more (41_sync.md R110, R111). -/
theorem completeSync_ok {s : State} (h : ¬(runLen s.inputBits = s.inLen.toNat ∨ runLen s.inputBits < 2)) :
    completeSync s =
      finish .ok { s.store fbufBase (realignedBytes s) with
        preRun := BitVec.ofNat 16 (runLen s.inputBits), flen := BitVec.ofNat 16 (realignedBytes s).length } := by
  rcases syncFn_cases s.inputBits with ⟨hyes, _⟩ | ⟨_, e⟩
  · rw [State.inputBits_length] at hyes
    exact absurd hyes h
  · rw [State.inputBits_length] at e
    simp only [completeSync, e, syncCode, writeSync, realignedBytes]

end Sys2Proof.Machine
end

section
/-! The statements about SYNC and the run length (41_sync.md R108 to R111, R115). -/

namespace Sys2Proof.Machine

/-- Settles O23: the run length of the model is one in the sense of R108 (`isRunLength_runLen`), and there is no other
(`IsRunLength.unique`). -/
theorem runLengthIsTheFirstBreak : Obligations.RunLengthIsTheFirstBreak := fun bits =>
  ⟨isRunLength_runLen bits, fun _ h => h.unique (isRunLength_runLen bits)⟩

/-- Settles O22: the run length of IBUF is that of the input bits (`runLen_inputBits`), so the two answers of SYNC
(`completeSync_preambleError`, `completeSync_ok`) are the two cases of the statement. -/
theorem syncCompletes : Obligations.SyncCompletes := by
  intro s L hp hL
  have hfits : ∀ m, m ≤ s.inLen.toNat → (BitVec.ofNat 16 m).toNat = m := fun m hm =>
    (BitVec.toNat_ofNat ..).trans (Nat.mod_eq_of_lt (hm.trans_lt s.inLen.isLt))
  have hle : L ≤ s.inLen.toNat := hL.le
  obtain rfl := runLen_inputBits hL
  by_cases hc : runLen s.inputBits = s.inLen.toNat ∨ runLen s.inputBits < 2
  · refine ⟨_, (exec_complete (c := .sync) hp).trans (congrArg _ (completeSync_preambleError hc)), rfl, hfits _ hle, ?_⟩
    rw [if_pos hc]
    exact ⟨rfl, rfl, rfl⟩
  · refine ⟨_, (exec_complete (c := .sync) hp).trans (congrArg _ (completeSync_ok hc)), rfl, hfits _ hle, ?_⟩
    rw [if_neg hc, ← realignedBytes_length]
    refine ⟨rfl, hfits _ ?_, fun j hj i hi => ?dataBit, fun a ha => s.bufByte_store_outside fbufBase _ ha⟩
    · rw [realignedBytes_length]
      omega
    case dataBit =>
      rw [← getLsbD_realignedBytes s hi hj]
      exact congrArg (·.getLsbD i) (s.bufByte_store_inside fbufBase _ hj)

end Sys2Proof.Machine
end

section
/-! SUPPORT. The extractor on the first `n` bytes of a buffer `f`: the words of the claims (`SyncWordMatches`, `IsFirstStop`)
as what `extractFn` tests and finds (42_extract.md R116 to R119). -/

namespace Sys2Proof.Machine

variable {n p : Nat} {f : Nat → Byte}

/-- The words of R116 and R117 are the test `extractFn` makes. -/
theorem syncWordMatches_iff :
    SyncWordMatches n f ↔ 5 ≤ n ∧ ((List.range n).map f).take 5 = syncWord := by
  refine and_congr_right fun h5 => ?_
  rw [← List.map_take, List.take_range, Nat.min_eq_left h5]
  simp [List.range_succ, syncWord]

/-- The bytes from index 5 up to an index `p` (42_extract.md R118). -/
def frameBody (f : Nat → Byte) (p : Nat) : Bytes := (List.range' 5 (p - 5)).map f

@[simp] theorem frameBody_length : (frameBody f p).length = p - 5 := by simp [frameBody]

theorem frameBody_getElem {i : Nat} (h : i < (frameBody f p).length) : (frameBody f p)[i] = f (5 + i) := by
  simp [frameBody]

/-- The stop search looks at all bytes from index 5 on. -/
theorem drop_sync_eq_frameBody : ((List.range n).map f).drop 5 = frameBody f n := by
  rw [← List.map_drop, List.range_eq_range', List.drop_range', frameBody]

theorem stopByte_not_mem_frameBody (h : ∀ q, 5 ≤ q → q < p → f q ≠ 0x35) : stopByte ∉ frameBody f p := by
  intro hmem
  obtain ⟨q, hq, hstop⟩ := List.mem_map.1 hmem
  have hrange := List.mem_range'_1.1 hq
  exact h q hrange.1 (by omega) hstop

/-- There is no stop byte before the first one. -/
theorem IsFirstStop.stopByte_not_mem (h : IsFirstStop n f p) : stopByte ∉ frameBody f p := by
  obtain ⟨_, _, _, hfirst⟩ := h
  exact stopByte_not_mem_frameBody hfirst

/-- The first stop byte cuts what the search looks at. -/
theorem IsFirstStop.frameBody_eq (h : IsFirstStop n f p) :
    ∃ rest, frameBody f n = frameBody f p ++ stopByte :: rest := by
  obtain ⟨h5, hlt, hstop, _⟩ := h
  obtain ⟨k, rfl⟩ := Nat.exists_eq_add_of_le h5
  have hsplit : List.range' 5 (n - 5) = List.range' 5 k ++ (5 + k) :: List.range' (5 + k + 1) (n - (5 + k) - 1) := by
    rw [← List.range'_succ, List.range'_append_1]
    congr 1
    omega
  refine ⟨(List.range' (5 + k + 1) (n - (5 + k) - 1)).map f, ?_⟩
  rw [frameBody, hsplit, List.map_append, List.map_cons, hstop, frameBody, Nat.add_sub_cancel_left, stopByte]

/-- Without the sync word the extractor answers SyncError (42_extract.md R116, R117). -/
theorem extractFn_eq_errSync (h : ¬SyncWordMatches n f) : extractFn ((List.range n).map f) = .errSync := by
  rw [syncWordMatches_iff] at h
  rcases extractFn_cases ((List.range n).map f) with ⟨_, e⟩ | ⟨h5, hs, _⟩ | ⟨_, h5, hs, _⟩
  · exact e
  all_goals exact absurd ⟨by simpa using h5, hs⟩ h

/-- With the sync word the answer is that of the stop search (42_extract.md R118). -/
theorem extractFn_of_syncWordMatches (h : SyncWordMatches n f) :
    extractFn ((List.range n).map f) = (beforeStop (frameBody f n)).elim .errEop .ok := by
  obtain ⟨h5, hs⟩ := syncWordMatches_iff.1 h
  rw [← drop_sync_eq_frameBody]
  rcases extractFn_cases ((List.range n).map f) with ⟨hno | hno, _⟩ | ⟨_, _, hb, e⟩ | ⟨out, _, _, hb, e⟩
  · rw [List.length_map, List.length_range] at hno
    omega
  · exact absurd hs hno
  · rw [e, hb]; rfl
  · rw [e, hb]; rfl

/-- The sync word and no stop byte after it: EndOfPacketError. -/
theorem extractFn_eq_errEop (h : SyncWordMatches n f) (hno : ∀ q, 5 ≤ q → q < n → f q ≠ 0x35) :
    extractFn ((List.range n).map f) = .errEop := by
  rw [extractFn_of_syncWordMatches h, beforeStop_of_not_mem (stopByte_not_mem_frameBody hno), Option.elim_none]

/-- The sync word and a stop byte after it: the bytes between them. -/
theorem extractFn_eq_ok (h : SyncWordMatches n f) (hp : IsFirstStop n f p) :
    extractFn ((List.range n).map f) = .ok (frameBody f p) := by
  obtain ⟨rest, hcut⟩ := hp.frameBody_eq
  rw [extractFn_of_syncWordMatches h, hcut, beforeStop_append hp.stopByte_not_mem, Option.elim_some]

end Sys2Proof.Machine
end

section
/-! The statement about EXTRACT at its completion (42_extract.md R116 to R119, R121). -/

namespace Sys2Proof.Machine

/-- EXTRACT's completion, for a known answer of the extractor (42_extract.md R121). -/
theorem completeExtract_eq {s : State} {r : ExtractResult} (h : extractFn s.inputFrame = r) :
    completeExtract s = finish (extractCode r) (writeExtract r s) := h ▸ rfl

/-- What EXTRACT's completion changes at most (42_extract.md R121). -/
theorem completeExtract_frame (s : State) :
    completeExtract s = { s with
      tlen := (completeExtract s).tlen, mem := (completeExtract s).mem, code := (completeExtract s).code,
      done := true, pending := none } := by
  simp only [completeExtract, finish]
  rw [writeExtract_frame]

/-- Settles O25: the three clauses are the three answers of the extractor on `FBUF[0 .. FLEN)` (`extractFn_eq_errSync`,
`extractFn_eq_errEop`, `extractFn_eq_ok`), and the last is stored at TBUF. -/
theorem extractCompletes : Obligations.ExtractCompletes := by
  intro s hpending
  refine ⟨completeExtract s, exec_complete (c := .extract) hpending, completeExtract_frame s,
    fun hsync => ?syncError, fun hsync hno => ?eopError, fun p hsync hstop => ?ok⟩
  case syncError =>
    rw [completeExtract_eq (extractFn_eq_errSync hsync)]
    exact ⟨rfl, rfl, rfl⟩
  case eopError =>
    rw [completeExtract_eq (extractFn_eq_errEop hsync hno)]
    exact ⟨rfl, rfl, rfl⟩
  case ok =>
    rw [completeExtract_eq (extractFn_eq_ok hsync hstop), ← frameBody_length (f := s.fbuf)]
    have hfits : (frameBody s.fbuf p).length < 2 ^ 16 := by
      obtain ⟨_, hlt, _⟩ := hstop
      have := s.flen.isLt
      rw [frameBody_length]
      omega
    refine ⟨rfl, (BitVec.toNat_ofNat ..).trans (Nat.mod_eq_of_lt hfits), fun i hi => ?_,
      fun a ha => s.bufByte_store_outside tbufBase _ ha⟩
    rw [← frameBody_getElem hi]
    exact s.bufByte_store_inside tbufBase _ hi

end Sys2Proof.Machine
end

section
/-! SUPPORT. The Manchester decoder on the first `n` bytes of a buffer `f`: the words of the claims (`IsNibble`) as what
`nib` finds, and what `decodePairs` makes of the paired symbols (43_manchester.md R123 to R126). -/

namespace Sys2Proof.Machine

variable {mt : Vector Byte 16}

/-- The words of R123 name the nibble that the model finds: an entry has a smallest index, and only one. -/
theorem IsNibble.nib_eq {x : Byte} {v : Nat} (h : IsNibble mt x v) : nib mt x = some v := by
  obtain ⟨hat, hfirst⟩ := h
  rcases hnib : nib mt x with _ | i
  · exact absurd (List.mem_of_getElem? hat) (indexOf_eq_none_iff.1 hnib)
  · obtain ⟨hat', hfirst'⟩ := indexOf_some hnib
    rcases Nat.lt_trichotomy i v with hlt | rfl | hlt
    · exact absurd hat' (hfirst i hlt)
    · rfl
    · exact absurd hat (hfirst' v hlt)

/-- A nibble is below 16. -/
theorem IsNibble.lt {x : Byte} {v : Nat} (h : IsNibble mt x v) : v < 16 := nib_lt h.nib_eq

/-- The first pair of a buffer, and the rest of it. -/
theorem map_range_add_two {α : Type} (g : Nat → α) (n : Nat) :
    (List.range (n + 2)).map g = g 0 :: g 1 :: (List.range n).map fun i => g (i + 2) := by
  simp [List.range_succ_eq_map]

/-- One paired symbol that is no entry makes the whole sequence invalid (43_manchester.md R125). -/
theorem decodePairs_eq_none {n i : Nat} {f : Nat → Byte} (hi : i < 2 * (n / 2)) (hbad : f i ∉ mt.toList) :
    decodePairs mt ((List.range n).map f) = none := by
  match n with
  | 0 | 1 => omega
  | n + 2 =>
    rw [map_range_add_two, decodePairs_cons_cons]
    match i with
    | 0 => rw [pairByte_none (.inl hbad)]
    | 1 => rw [pairByte_none (.inr hbad)]
    | i + 2 =>
      have hrest := decodePairs_eq_none (n := n) (f := fun k => f (k + 2)) (by omega) hbad
      rw [hrest]
      split <;> rfl

/-- The bytes of `m` pairs of nibbles, the first of a pair high (43_manchester.md R124). -/
def nibbleBytes (nibble : Nat → Nat) (m : Nat) : Bytes :=
  (List.range m).map fun j => BitVec.ofNat 8 (nibble (2 * j) * 16 + nibble (2 * j + 1))

@[simp] theorem nibbleBytes_length (nibble : Nat → Nat) (m : Nat) : (nibbleBytes nibble m).length = m := by
  simp [nibbleBytes]

theorem nibbleBytes_getElem {nibble : Nat → Nat} {m j : Nat} (h : j < (nibbleBytes nibble m).length) :
    (nibbleBytes nibble m)[j] = BitVec.ofNat 8 (nibble (2 * j) * 16 + nibble (2 * j + 1)) := by
  simp [nibbleBytes]

theorem nibbleBytes_succ (nibble : Nat → Nat) (m : Nat) :
    nibbleBytes nibble (m + 1) =
      BitVec.ofNat 8 (nibble 0 * 16 + nibble 1) :: nibbleBytes (fun i => nibble (i + 2)) m := by
  simp [nibbleBytes, List.range_succ_eq_map, Nat.mul_add]

/-- Two nibbles fit a byte. -/
theorem toNat_nibblePair {hi lo : Nat} (hhi : hi < 16) (hlo : lo < 16) :
    (BitVec.ofNat 8 (hi * 16 + lo)).toNat = hi * 16 + lo := by
  rw [BitVec.toNat_ofNat, Nat.mod_eq_of_lt (by omega)]

/-- Where every paired symbol is an entry, the bytes are those of the nibbles; an odd last symbol has no part in them
(43_manchester.md R124, R126). -/
theorem decodePairs_eq_nibbleBytes {n : Nat} {f : Nat → Byte} {nibble : Nat → Nat}
    (h : ∀ i, i < 2 * (n / 2) → nib mt (f i) = some (nibble i)) :
    decodePairs mt ((List.range n).map f) = some (nibbleBytes nibble (n / 2)) := by
  match n with
  | 0 | 1 => rfl
  | n + 2 =>
    have hrest := decodePairs_eq_nibbleBytes (n := n) (f := fun k => f (k + 2)) (nibble := fun k => nibble (k + 2))
      fun i hi => h (i + 2) (by omega)
    rw [map_range_add_two, decodePairs_cons_cons, pairByte_eq (h 0 (by omega)) (h 1 (by omega)), hrest,
      Nat.add_div_right n (by decide), nibbleBytes_succ]
    rfl

end Sys2Proof.Machine
end

section
/-! The statement about MDECODE at its completion (43_manchester.md R123 to R128). -/

namespace Sys2Proof.Machine

/-- What MDECODE's completion changes at most (43_manchester.md R128). -/
theorem completeMdecode_frame (s : State) :
    completeMdecode s = { s with
      dlen := (completeMdecode s).dlen, mem := (completeMdecode s).mem, code := (completeMdecode s).code,
      done := true, pending := none } := by
  simp only [completeMdecode, finish]
  rw [writeMdecode_frame]

/-- MDECODE where a paired symbol is invalid: MANCHESTER_ERROR, DLEN = 0, the buffers as before. -/
theorem completeMdecode_error {s : State} (h : decodePairs s.params.mt s.inputSymbols = none) :
    completeMdecode s = finish .manchesterError { s with dlen := 0 } := by
  simp only [completeMdecode, mdecodeFn, h, mdecodeCode, writeMdecode]

/-- MDECODE where all pairs decode: their bytes in DBUF. -/
theorem completeMdecode_ok {s : State} {out : Bytes} (h : decodePairs s.params.mt s.inputSymbols = some out) :
    completeMdecode s = finish .ok { s.store dbufBase out with dlen := BitVec.ofNat 16 out.length } := by
  simp only [completeMdecode, mdecodeFn, h, mdecodeCode, writeMdecode]

/-- Settles O27: on `TBUF[0 .. TLEN)` the pairs are invalid where one paired symbol is (`decodePairs_eq_none`), and are the
bytes of their nibbles where each has one (`decodePairs_eq_nibbleBytes`), which are then stored at DBUF. -/
theorem mdecodeCompletes : Obligations.MdecodeCompletes := by
  intro s hpending
  refine ⟨completeMdecode s, exec_complete (c := .mdecode) hpending, completeMdecode_frame s, ?error,
    fun nibble hnibble => ?ok⟩
  case error =>
    rintro ⟨i, hi, hbad⟩
    rw [completeMdecode_error (decodePairs_eq_none hi hbad)]
    exact ⟨rfl, rfl, rfl⟩
  case ok =>
    have hdecode : decodePairs s.params.mt s.inputSymbols = some (nibbleBytes nibble (s.tlen.toNat / 2)) :=
      decodePairs_eq_nibbleBytes fun i hi => (hnibble i hi).nib_eq
    have hfits : s.tlen.toNat / 2 < 2 ^ 16 := (Nat.div_le_self _ 2).trans_lt s.tlen.isLt
    rw [completeMdecode_ok hdecode]
    refine ⟨rfl, ?length, fun j hj => ?byte, fun a ha => ?outside⟩
    case length =>
      rw [finish_dlen, nibbleBytes_length, BitVec.toNat_ofNat, Nat.mod_eq_of_lt hfits]
    case byte =>
      have hin : j < (nibbleBytes nibble (s.tlen.toNat / 2)).length := by rwa [nibbleBytes_length]
      have hstored := s.bufByte_store_inside dbufBase _ hin
      rw [nibbleBytes_getElem] at hstored
      rw [← toNat_nibblePair (hnibble (2 * j) (by omega)).lt (hnibble (2 * j + 1) (by omega)).lt]
      exact congrArg BitVec.toNat hstored
    case outside =>
      refine s.bufByte_store_outside dbufBase _ ?_
      rwa [nibbleBytes_length]

end Sys2Proof.Machine
end

section
/-! SUPPORT. The parser on `DBUF[0 .. DLEN)`: the words of the claims (`byteSum`, `CutAt`) as what `checksum` and
`parseFields` make of those bytes (44_parse.md R130, R132). -/

namespace Sys2Proof.Machine

/-- The rolling checksum is the sum of all bytes, reduced once at the end (44_parse.md R130). -/
theorem checksum_eq_ofNat_sum (l : Bytes) : checksum l = BitVec.ofNat 8 (l.map BitVec.toNat).sum := by
  induction l with
  | nil => rfl
  | cons b rest ih =>
    rw [checksum_cons, ih, List.map_cons, List.sum_cons, BitVec.ofNat_add, BitVec.ofNat_toNat, BitVec.setWidth_eq]

/-- The checksum of the input of PARSE is the sum of `DBUF[0 .. DLEN)`. -/
theorem State.checksum_inputPacket (s : State) :
    checksum s.inputPacket = BitVec.ofNat 8 (byteSum s.dlen.toNat s.dbuf) := by
  rw [checksum_eq_ofNat_sum, State.inputPacket, List.map_map]
  rfl

/-- The check of R131 passes where the sum is 0 modulo 256. -/
theorem State.checksum_inputPacket_eq_zero {s : State} (h : byteSum s.dlen.toNat s.dbuf % 256 = 0) :
    checksum s.inputPacket = 0 := by
  rw [s.checksum_inputPacket]
  exact BitVec.eq_of_toNat_eq ((BitVec.toNat_ofNat ..).trans h)

/-- Byte `i` of the input of PARSE is `DBUF[i]` (40_command_cycle.md R96). -/
theorem State.byteAt_inputPacket (s : State) {i : Nat} (h : i < s.dlen.toNat) : byteAt s.inputPacket i = s.dbuf i := by
  rw [byteAt, State.inputPacket, List.getD_eq_getElem?_getD, List.getElem?_map, List.getElem?_range h]
  rfl

/-- Where the fields before the payload begin depends on the header alone, and no byte is read of an empty packet. -/
theorem CutAt.congr {p : Params} {f g : Nat → Byte} {n pos : Nat} (h : CutAt (packetLayout p f) n pos)
    (hheader : 1 ≤ n → g 0 = f 0) : CutAt (packetLayout p g) n pos := by
  rcases h with hempty | ⟨h1, hfield⟩
  · exact .inl hempty
  · refine .inr ⟨h1, ?_⟩
    simp only [packetLayout, hheader h1]
    exact hfield

/-- A packet in DBUF that ends inside a field before the payload: the parser stops at that field. -/
theorem parseFields_inputPacket_cut {s : State} {pos : Nat}
    (h : CutAt (packetLayout s.params s.dbuf) s.dlen.toNat pos) : parseFields s.params s.inputPacket = .error pos := by
  apply parseFields_cut
  rw [State.inputPacket_length]
  exact h.congr s.byteAt_inputPacket

/-- PARSE where the sum is 0 and a field does not fit: MALFORMED, and of the packet-result group only PCONS is set
(44_parse.md R132, R142). -/
theorem completeParse_malformed {s : State} {pos : Nat} (hsum : checksum s.inputPacket = 0)
    (hfields : parseFields s.params s.inputPacket = .error pos) :
    completeParse s =
      finish .malformed { s with pkt := { PacketGroup.zero with pcons := BitVec.ofNat 16 pos } } := by
  have hparse : parseFn s.params s.inputPacket = .errMalformed 0 pos := by
    simp only [parseFn, hsum, hfields, ne_eq, not_true, if_false]
  rw [completeParse, hparse]
  rfl

end Sys2Proof.Machine
end

section
/-! The statement about PARSE of a packet that ends inside a field before the payload (44_parse.md R132). -/

namespace Sys2Proof.Machine

/-- Settles O32: the sum passes the check (`State.checksum_inputPacket_eq_zero`), the parser stops at the field that the end of
the packet falls into (`parseFields_inputPacket_cut`), and PARSE answers that place (`completeParse_malformed`). -/
theorem parseCutFieldIsMalformed : Obligations.ParseCutFieldIsMalformed := by
  refine ⟨fun s pos hpending hsum hcut => ?_, rfl⟩
  have hfields := parseFields_inputPacket_cut hcut
  have hcomplete := completeParse_malformed (State.checksum_inputPacket_eq_zero hsum) hfields
  exact (exec_complete (c := .parse) hpending).trans (congrArg _ hcomplete)

end Sys2Proof.Machine
end

section
/-! SUPPORT. The frame of DECODE's completion: which registers it can change, and that the buffer bytes outside the prefixes that
FLEN, TLEN and DLEN count stay as they were (45_decode.md R146). -/

namespace Sys2Proof.Machine

/-- What keeps the fields that no command writes, and ends with none pending, may differ in the fields named here only
(40_command_cycle.md R96, R97). -/
theorem Keeps.eq_of_completed {s t : State} (h : Keeps s t) (hdone : t.done = true) (hpending : t.pending = none) :
    t = { s with
      preRun := t.preRun, flen := t.flen, tlen := t.tlen, dlen := t.dlen, mem := t.mem, pkt := t.pkt, code := t.code
      done := true, pending := none } := by
  rw [← h.irqEn, ← h.inLen, ← h.params, ← h.epoch, ← h.order, ← h.reads, ← hdone, ← hpending]

/-- A store whose length fits a length register leaves every location outside the prefix that the register counts alone. -/
theorem State.bufByte_store_outside_prefix (s : State) {base a : Nat} {bytes : Bytes} (hfits : bytes.length < 2 ^ 16)
    (h : a < base ∨ base + (BitVec.ofNat 16 bytes.length).toNat ≤ a) :
    (s.store base bytes).bufByte a = s.bufByte a := by
  rw [BitVec.toNat_ofNat, Nat.mod_eq_of_lt hfits] at h
  exact s.bufByte_store_outside base bytes h

@[simp] theorem writeParse_flen (r : ParseResult) (s : State) : (writeParse r s).flen = s.flen := by cases r <;> rfl

@[simp] theorem writeParse_tlen (r : ParseResult) (s : State) : (writeParse r s).tlen = s.tlen := by cases r <;> rfl

@[simp] theorem writeParse_dlen (r : ParseResult) (s : State) : (writeParse r s).dlen = s.dlen := by cases r <;> rfl

@[simp] theorem writeParse_bufByte (r : ParseResult) (s : State) (a : Nat) : (writeParse r s).bufByte a = s.bufByte a := by
  cases r <;> rfl

/-- The pipeline writes each buffer only in the prefix that its length register counts at the end: no stage's output is longer
than its input, so every length fits its register, and no later stage writes that register again. -/
theorem bufByte_decodeFromBits_outside {bits : Bits} (s : State) (hbits : bits.length < 2 ^ 16) {a : Nat}
    (hF : a < fbufBase ∨ fbufBase + (decodeFromBits bits s).flen.toNat ≤ a)
    (hT : a < tbufBase ∨ tbufBase + (decodeFromBits bits s).tlen.toNat ≤ a)
    (hD : a < dbufBase ∨ dbufBase + (decodeFromBits bits s).dlen.toNat ≤ a) :
    (decodeFromBits bits s).bufByte a = s.bufByte a := by
  rcases decodeFromBits_cases bits s with ⟨run, _, e⟩ | ⟨f, run, hsync, hstages⟩
  · rw [e]
    rfl
  have hf : f.length < 2 ^ 16 := by have := syncFn_length hsync; omega
  rcases hstages with ⟨_, e⟩ | ⟨_, e⟩ | ⟨t, hextract, hstages⟩
  · rw [e] at hF ⊢
    exact s.bufByte_store_outside_prefix hf hF
  · rw [e] at hF ⊢
    exact s.bufByte_store_outside_prefix hf hF
  have ht : t.length < 2 ^ 16 := by have := extractFn_length hextract; omega
  rcases hstages with ⟨_, e⟩ | ⟨d, hmdecode, e⟩
  · rw [e] at hF hT ⊢
    exact ((writeSync (.ok f run) s).bufByte_store_outside_prefix ht hT).trans (s.bufByte_store_outside_prefix hf hF)
  · have hd : d.length < 2 ^ 16 := by have := mdecodeFn_length hmdecode; omega
    rw [e] at hF hT hD ⊢
    rw [finish_flen, writeParse_flen] at hF
    rw [finish_tlen, writeParse_tlen] at hT
    rw [finish_dlen, writeParse_dlen] at hD
    calc (writeParse (parseFn s.params d)
            (writeMdecode (.ok d) (writeExtract (.ok t) (writeSync (.ok f run) s)))).bufByte a
        = (writeMdecode (.ok d) (writeExtract (.ok t) (writeSync (.ok f run) s))).bufByte a := writeParse_bufByte ..
      _ = (writeExtract (.ok t) (writeSync (.ok f run) s)).bufByte a := State.bufByte_store_outside_prefix _ hd hD
      _ = (writeSync (.ok f run) s).bufByte a := State.bufByte_store_outside_prefix _ ht hT
      _ = s.bufByte a := State.bufByte_store_outside_prefix _ hf hF

end Sys2Proof.Machine
end

section
/-! The statement about DECODE at its completion (45_decode.md R146, R147). -/

namespace Sys2Proof.Machine

/-- Settles O35: DECODE keeps what no command writes (`complete_keeps`) and the buffer bytes outside the three prefixes
(`bufByte_decodeFromBits_outside`), and its pipeline from the cleared packet result ends at the first stage that fails or after
the parser (`decodeFromBits_cases`), which are the cases of the statement. -/
theorem decodeCompletes : Obligations.DecodeCompletes := by
  intro s hpending
  obtain ⟨hkeeps, hnone, hdone, _⟩ := complete_keeps .decode s
  have hbits : s.inputBits.length < 2 ^ 16 := s.inputBits_length ▸ s.inLen.isLt
  refine ⟨completeDecode s, exec_complete (c := .decode) hpending, hkeeps.eq_of_completed hdone hnone,
    fun a hF hT hD => bufByte_decodeFromBits_outside (clearPacket s) hbits hF hT hD, clearPacket s, rfl, ?stages⟩
  case stages =>
    rcases decodeFromBits_cases s.inputBits (clearPacket s) with ⟨run, hsync, e⟩ | ⟨f, run, hsync, hstages⟩
    · rw [hsync]
      exact e
    simp only [hsync]
    rcases hstages with ⟨hextract, e⟩ | ⟨hextract, e⟩ | ⟨symbols, hextract, hstages⟩
    · rw [hextract]
      exact e
    · rw [hextract]
      exact e
    simp only [hextract]
    rw [clearPacket_params] at hstages
    rcases hstages with ⟨hmdecode, e⟩ | ⟨d, hmdecode, e⟩
    · rw [hmdecode]
      exact e
    · rw [hmdecode]
      exact e

end Sys2Proof.Machine
end

section
/-! SUPPORT. The illegal opcodes as ranges (30_encoding.md R72), what an immediate command does while one is pending (20_memory.md
R63), its write to OP as a step in either case, and STATUS after a rejection and after CLEAR (46_control.md R151 to R153). -/

namespace Sys2Proof

/-- The bytes that are no command's opcode are the ranges of R72. -/
theorem ne_opcode_iff (v : Byte) : (∀ i, v ≠ opcode i) ↔ (0x06 ≤ v.toNat ∧ v.toNat ≤ 0x0E) ∨ 0x10 ≤ v.toNat := by
  constructor
  · intro h
    have hne (i : Instr) : v.toNat ≠ (opcode i).toNat := mt BitVec.eq_of_toNat_eq (h i)
    have hnop : v.toNat ≠ 0x00 := hne .nop
    have hdecode : v.toNat ≠ 0x01 := hne .decode
    have hsync : v.toNat ≠ 0x02 := hne .sync
    have hextract : v.toNat ≠ 0x03 := hne .extract
    have hmdecode : v.toNat ≠ 0x04 := hne .mdecode
    have hparse : v.toNat ≠ 0x05 := hne .parse
    have hclear : v.toNat ≠ 0x0F := hne .clear
    omega
  · rintro h i rfl
    revert h
    cases i <;> decide

/-- The decoder refuses a byte exactly where it is no command's opcode. -/
theorem decode_eq_illegalOpcode_iff (v : Byte) : decode [v] = .error (.illegalOpcode v) ↔ ∀ i, v ≠ opcode i := by
  rw [← Machine.commandOf_eq_none_iff, decode]
  cases commandOf v <;> simp

end Sys2Proof

namespace Sys2Proof.Machine

/-! ## The immediate commands -/

/-- An immediate command is ignored while a command is pending (20_memory.md R63). -/
theorem runImmediate_busy {operation : State → State} {s : State} (hp : s.pending ≠ none) :
    runImmediate operation s = s := by
  rcases runImmediate_cases operation s with ⟨hnone, _⟩ | ⟨_, _, hsame⟩
  · exact absurd hnone hp
  · exact hsame

/-- NOP changes nothing, whether a command is pending or not (46_control.md R151). -/
theorem exec_nop (s : State) : exec .nop s = .next s := by
  by_cases hp : s.pending = none
  · exact exec_nop_idle hp
  · rw [exec_eq, resultOf, runImmediate_busy hp]

/-- CLEAR cannot cancel a pending command (46_control.md R152). -/
theorem exec_clear_busy {s : State} (hp : s.pending ≠ none) : exec .clear s = .next s := by
  rw [exec_eq, resultOf, runImmediate_busy hp]

/-- The write of an opcode to OP runs its command whether a command is pending or not, where the command itself does nothing while
one is pending. -/
theorem step_write_opcode_of_busy {i : Instr} (hbusy : ∀ t : State, t.pending ≠ none → exec i t = .next t)
    {s : State} {es : List Event} (ho : s.order = .write 0x0000 (opcode i) :: es) :
    step s = exec i { s with order := es } := by
  by_cases hp : s.pending = none
  · exact step_write_opcode i ho hp
  · exact (busyWritesAreIgnored s _ _ es ho hp).trans (hbusy { s with order := es } hp).symm

/-! ## STATUS with no command pending -/

/-- With no command pending, STATUS is CODE and DONE (10_state.md R25). -/
theorem State.toNat_status_idle {s : State} (hp : s.pending = none) :
    s.status.toNat = s.code.bits.toNat + 16 * s.done.toNat := by
  rw [State.toNat_status, hp]
  rfl

theorem status_reject_illegalCmd {s : State} (hp : s.pending = none) : (reject .illegalCmd s).status = 0x17 :=
  BitVec.eq_of_toNat_eq (State.toNat_status_idle hp)

theorem status_clearAll {s : State} (hp : s.pending = none) : (clearAll s).status = 0x00 :=
  BitVec.eq_of_toNat_eq (State.toNat_status_idle hp)

end Sys2Proof.Machine
end

section
/-! The statements about NOP, CLEAR and the illegal opcodes (46_control.md R151 to R153, 60_exceptions.md R161). -/

namespace Sys2Proof.Machine

/-- Settles O4: the refused bytes are those that are no command's opcode (`decode_eq_illegalOpcode_iff`), which are the two ranges
(`ne_opcode_iff`); the write of one is rejected with none pending (`step_write_illegal`) and ignored otherwise
(`busyWritesAreIgnored`), and that of 0x00 is a NOP (`exec_nop`). -/
theorem illegalOpcodesAreRejectedAtOnce : Obligations.IllegalOpcodesAreRejectedAtOnce := by
  refine ⟨fun v => (decode_eq_illegalOpcode_iff v).trans (ne_opcode_iff v),
    fun s v es ho hv => ⟨fun hp => ?rejected, fun hp => busyWritesAreIgnored s _ v es ho hp⟩, fun s es ho hp => ?nop⟩
  case rejected =>
    have hstep := step_write_illegal ((ne_opcode_iff v).mpr hv) ho hp
    exact ⟨reject .illegalCmd { s with order := es }, hstep, rfl, status_reject_illegalCmd hp, Bool.true_and _⟩
  case nop => exact (step_write_opcode .nop ho hp).trans (exec_nop _)

/-- Settles O19: NOP answers the same state from every state (`exec_nop`), so its write to OP only takes its event. -/
theorem nopChangesNothing : Obligations.NopChangesNothing := fun s =>
  ⟨exec_nop s, fun _ ho => (step_write_opcode_of_busy (i := .nop) (fun t _ => exec_nop t) ho).trans (exec_nop _)⟩

/-- Settles O20: CLEAR is `clearAll` with none pending (`exec_clear_idle`) and nothing otherwise (`exec_clear_busy`), so its write
to OP runs it in both cases (`step_write_opcode_of_busy`). -/
theorem clearClearsStatusAndResults : Obligations.ClearClearsStatusAndResults := fun s =>
  ⟨fun hp => ⟨clearAll s, exec_clear_idle hp, rfl, Bool.false_and _, status_clearAll hp⟩, exec_clear_busy,
    fun _ ho => step_write_opcode_of_busy (i := .clear) (fun _ => exec_clear_busy) ho⟩

end Sys2Proof.Machine
end

section
/-! SUPPORT. PARSE where the sum fails the check (44_parse.md R131, 60_exceptions.md R159). -/

namespace Sys2Proof.Machine

/-- The check of R131 fails where the sum is not 0 modulo 256. -/
theorem State.checksum_inputPacket_ne_zero {s : State} (h : byteSum s.dlen.toNat s.dbuf % 256 ≠ 0) :
    checksum s.inputPacket ≠ 0 := by
  rw [s.checksum_inputPacket]
  exact fun hzero => h ((BitVec.toNat_ofNat ..).symm.trans (congrArg BitVec.toNat hzero))

/-- The parser reads no field of a packet whose checksum is not 0 (44_parse.md R131). -/
theorem parseFn_errChecksum {p : Params} {d : Bytes} (h : checksum d ≠ 0) : parseFn p d = .errChecksum (checksum d) :=
  if_pos h

/-- PARSE where the checksum is not 0: CHECKSUM_ERROR, and of the packet-result group only CSUM is set
(60_exceptions.md R159). -/
theorem completeParse_checksumError {s : State} (h : checksum s.inputPacket ≠ 0) :
    completeParse s =
      finish .checksumError { s with pkt := { PacketGroup.zero with csum := checksum s.inputPacket, pcons := 0 } } := by
  rw [completeParse, parseFn_errChecksum h]
  rfl

end Sys2Proof.Machine
end

section
/-! The statement about PARSE of a packet that fails the checksum (60_exceptions.md R159). -/

namespace Sys2Proof.Machine

/-- Settles O30: the sum fails the check (`State.checksum_inputPacket_ne_zero`), so PARSE answers the checksum alone
(`completeParse_checksumError`), which is the sum as a byte (`State.checksum_inputPacket`). -/
theorem parseChecksumFailure : Obligations.ParseChecksumFailure := by
  refine ⟨fun s hpending hsum => ?_, rfl⟩
  have hcomplete := completeParse_checksumError (State.checksum_inputPacket_ne_zero hsum)
  rw [s.checksum_inputPacket] at hcomplete
  exact (exec_complete (c := .parse) hpending).trans (congrArg _ hcomplete)

end Sys2Proof.Machine
end

section
/-! SUPPORT. The events other than a host write and a reset, with no command pending (30_encoding.md R94, 60_exceptions.md
R173). -/

namespace Sys2Proof.Machine

/-- With no command pending the first poll of a WAIT sees BUSY = 0 and ends it (30_encoding.md R94). -/
theorem pollStatus_idle {s : State} (polls : Nat) (hp : s.pending = none) :
    pollStatus polls s = .next (hostRead 0x0002 s) := by
  simp [pollStatus, State.busy_none hp]

/-- With the order used up and no command pending, a step changes nothing. -/
theorem step_nil_idle {s : State} (hp : s.pending = none) (ho : s.order = []) : step s = .next s := by
  rw [step_eq, ho]
  exact engineStep_idle hp

/-- With no command pending, an event that is neither a host write nor a reset adds to what the host has read at most. -/
theorem takeEvent_idle {s : State} {e : Event} (hp : s.pending = none) (hwrite : ∀ a v, e ≠ .write a v)
    (hreset : e ≠ .reset) : ∃ r, takeEvent e s = .next { s with reads := r } := by
  cases e with
  | read a => exact ⟨_, rfl⟩
  | write a v => exact absurd rfl (hwrite a v)
  | wait polls => exact ⟨_, pollStatus_idle polls hp⟩
  | engine => exact ⟨s.reads, engineStep_idle hp⟩
  | reset => exact absurd rfl hreset

end Sys2Proof.Machine
end

section
/-! The statement about CORE with no command pending (60_exceptions.md R173). -/

namespace Sys2Proof.Machine

/-- Settles O15: with the order used up the ENGINE has no step to take (`step_nil_idle`), and the events left beside a host write
and a reset only read (`takeEvent_idle`). -/
theorem idleCoreKeepsItsState : Obligations.IdleCoreKeepsItsState := by
  refine fun s hp => ⟨fun hwrite hreset => ?_, step_nil_idle hp⟩
  rcases ho : s.order with _ | ⟨e, es⟩
  · exact ⟨s, step_nil_idle hp ho, rfl⟩
  · obtain ⟨r, htake⟩ : ∃ r, takeEvent e { s with order := es } = .next { s with order := es, reads := r } :=
      takeEvent_idle hp (fun a v he => hwrite a v es (he ▸ ho)) (fun he => hreset es (he ▸ ho))
    refine ⟨{ s with order := es, reads := r }, ?_, rfl⟩
    rw [step_eq, ho]
    exact htake

end Sys2Proof.Machine
end

section
/-! SUPPORT. What one step makes of a state, said once for the whole machine: the rest of the order is put in force, and then one of
a few things happens to the state (20_memory.md R65, 40_command_cycle.md R102 to R106). -/

namespace Sys2Proof.Machine

/-- What a step makes of the state `u` whose order has moved on: nothing, the completion of the pending command, the effect of a
write to OP, a store to another address, a read, or a reset. -/
inductive StepEffect (u : State) : State → Prop
  | unchanged : StepEffect u u
  | completed {c : Cmd} (hp : u.pending = some c) : StepEffect u (complete c u)
  | issued (hp : u.pending = none) (i : Instr) : StepEffect u (resultOf i u)
  | illegal (hp : u.pending = none) : StepEffect u (reject .illegalCmd u)
  | stored (hp : u.pending = none) (a : Addr) (v : Byte) : StepEffect u (u.busStore a v)
  | read (a : Addr) : StepEffect u (hostRead a u)
  | reset : StepEffect u (resetCore u)

/-- A poll that sees BUSY = 1 with none left gives the ENGINE its step (log 8). -/
theorem pollStatus_zero_busy {s : State} (hp : s.pending ≠ none) :
    pollStatus 0 s = engineStep { s with order := .wait 0 :: s.order } :=
  if_pos (Option.isSome_iff_ne_none.mpr hp)

/-- A poll that sees BUSY = 1 with some left reads STATUS and stays in the loop (30_encoding.md R94). -/
theorem pollStatus_succ_busy {s : State} (k : Nat) (hp : s.pending ≠ none) :
    pollStatus (k + 1) s = .next (hostRead 0x0002 { s with order := .wait k :: s.order }) :=
  if_pos (Option.isSome_iff_ne_none.mpr hp)

theorem hostWrite_effect (a : Addr) (v : Byte) (u : State) : ∃ t, hostWrite a v u = .next t ∧ StepEffect u t := by
  rcases hostWrite_cases a v u with ⟨_, e⟩ | ⟨hp, _, i, _, e⟩ | ⟨hp, _, _, e⟩ | ⟨hp, _, e⟩
  · exact ⟨_, e, .unchanged⟩
  · exact ⟨_, e, .issued hp i⟩
  · exact ⟨_, e, .illegal hp⟩
  · exact ⟨_, e, .stored hp a v⟩

theorem engineStep_effect (u : State) : ∃ t, engineStep u = .next t ∧ StepEffect u t := by
  rcases engineStep_cases u with ⟨_, e⟩ | ⟨c, hp, e⟩
  · exact ⟨_, e, .unchanged⟩
  · exact ⟨_, e, .completed hp⟩

/-- Every step answers a next state, which is one of the effects on the state with some rest of the order. -/
theorem step_effect (s : State) : ∃ es t, step s = .next t ∧ StepEffect { s with order := es } t := by
  rw [step_eq]
  rcases ho : s.order with _ | ⟨e, es⟩
  · obtain ⟨t, hstep, heffect⟩ := engineStep_effect s
    exact ⟨s.order, t, hstep, heffect⟩
  · cases e with
    | read a => exact ⟨es, _, rfl, .read a⟩
    | write a v => exact ⟨es, hostWrite_effect a v { s with order := es }⟩
    | engine => exact ⟨es, engineStep_effect { s with order := es }⟩
    | reset => exact ⟨es, _, rfl, .reset⟩
    | wait polls =>
      by_cases hp : s.pending = none
      · exact ⟨es, _, pollStatus_idle polls hp, .read 0x0002⟩
      cases polls with
      | zero =>
        obtain ⟨t, hstep, heffect⟩ := engineStep_effect { s with order := .wait 0 :: es }
        exact ⟨_, t, (pollStatus_zero_busy (s := { s with order := es }) hp).trans hstep, heffect⟩
      | succ k => exact ⟨.wait k :: es, _, pollStatus_succ_busy k hp, .read 0x0002⟩

/-- The effect of a step whose answer is known. -/
theorem stepEffect_of_step {s t : State} (h : step s = .next t) : ∃ es, StepEffect { s with order := es } t := by
  obtain ⟨es, t', hstep, heffect⟩ := step_effect s
  rw [h] at hstep
  cases hstep
  exact ⟨es, heffect⟩

/-- No effect of a step reaches the parameters (00_scope.md R8, R9). -/
theorem StepEffect.params_eq {u t : State} (h : StepEffect u t) : t.params = u.params := by
  cases h with
  | unchanged => rfl
  | completed hp => exact (complete_keeps _ u).1.params
  | issued hp i => exact (resultOf_keeps i u).params
  | illegal hp => rfl
  | stored hp a v => exact (busStore_frame u a v).1
  | read a => rfl
  | reset => rfl

end Sys2Proof.Machine
end

section
/-! SUPPORT. The parts of a good state (Safety.lean) through each effect of a step: the memory, the packet-result group, and what
holds of a pending command (10_state.md section 7, 20_memory.md R64, 40_command_cycle.md R103). -/

namespace Sys2Proof.Machine

theorem State.Good.memoryGood {s : State} (h : s.Good) : MemoryGood s.mem := ⟨h.mem_wf, h.mem_inBuffers⟩

/-- With no command pending, a good state needs its parameters, its memory and its packet-result group only. -/
theorem State.Good.of_idle {s : State} (hcapacity : s.params.capacityOk = true) (hmem : MemoryGood s.mem)
    (hpending : s.pending = none) (hpkt : PacketGroup.Good s.params s.pkt) : s.Good where
  capacity_ok := hcapacity
  mem_wf := hmem.wf
  mem_inBuffers := hmem.inBuffers
  pending_not_done c hc := by simp [hpending] at hc
  pending_fits c hc := by simp [hpending] at hc
  packet_good := hpkt

@[simp] theorem writeSync_pkt (r : SyncResult) (s : State) : (writeSync r s).pkt = s.pkt := by cases r <;> rfl

@[simp] theorem writeExtract_pkt (r : ExtractResult) (s : State) : (writeExtract r s).pkt = s.pkt := by cases r <;> rfl

@[simp] theorem writeMdecode_pkt (r : MdecodeResult) (s : State) : (writeMdecode r s).pkt = s.pkt := by cases r <;> rfl

@[simp] theorem writeParse_mem (r : ParseResult) (s : State) : (writeParse r s).mem = s.mem := by cases r <;> rfl

/-- DECODE's stores stay inside the buffers where its input does: each stage's output is no longer than its input. -/
theorem memoryGood_decodeFromBits {s : State} {bits : Bits} (h : MemoryGood s.mem) (hbits : bits.length ≤ 8192) :
    MemoryGood (decodeFromBits bits s).mem := by
  have hsyncMem := memoryGood_writeSync h hbits
  rcases decodeFromBits_cases bits s with ⟨run, hsync, e⟩ | ⟨f, run, hsync, hstages⟩
  · rwa [e, finish_mem, ← hsync]
  have hf : f.length ≤ 1024 := by have := syncFn_length hsync; omega
  have hextractMem := memoryGood_writeExtract hsyncMem hf
  rw [hsync] at hextractMem
  rcases hstages with ⟨hextract, e⟩ | ⟨hextract, e⟩ | ⟨t, hextract, hstages⟩
  · rwa [e, finish_mem, ← hextract]
  · rwa [e, finish_mem, ← hextract]
  have ht : t.length ≤ 1024 := by have := extractFn_length hextract; omega
  have hmdecodeMem := memoryGood_writeMdecode (mt := s.params.mt) hextractMem ht
  rw [hextract] at hmdecodeMem
  rcases hstages with ⟨hmdecode, e⟩ | ⟨d, hmdecode, e⟩
  · rwa [e, finish_mem, ← hmdecode]
  · rwa [e, finish_mem, writeParse_mem, ← hmdecode]

/-- The completion of a command that has passed the length check stores inside the buffers. -/
theorem memoryGood_complete {c : Cmd} {s : State} (h : s.Good) (hp : s.pending = some c) :
    MemoryGood (complete c s).mem := by
  have hfits := h.pending_fits c hp
  have hmax := maxBits_le h.capacity_ok
  cases c with
  | decode =>
    exact memoryGood_decodeFromBits (s := clearPacket s) h.memoryGood (by rw [State.inputBits_length]; exact hfits.trans hmax)
  | sync => exact memoryGood_writeSync h.memoryGood (by rw [State.inputBits_length]; exact hfits.trans hmax)
  | extract => exact memoryGood_writeExtract h.memoryGood (by rw [State.inputFrame_length]; exact hfits)
  | mdecode => exact memoryGood_writeMdecode h.memoryGood (by rw [State.inputSymbols_length]; exact hfits)
  | parse =>
    rw [complete, completeParse, finish_mem, writeParse_mem]
    exact h.memoryGood

/-- The pipeline leaves the cleared packet-result group, or what the parser writes into it. -/
theorem packetGood_decodeFromBits {s : State} (bits : Bits) (h : s.pkt = PacketGroup.zero) :
    PacketGroup.Good s.params (decodeFromBits bits s).pkt := by
  have hzero := packetGood_zero s.params
  rw [← h] at hzero
  rcases decodeFromBits_cases bits s with ⟨run, _, e⟩ | ⟨f, run, _, ⟨_, e⟩ | ⟨_, e⟩ | ⟨t, _, ⟨_, e⟩ | ⟨d, _, e⟩⟩⟩ <;>
    rw [e, finish_pkt]
  · rwa [writeSync_pkt]
  · rwa [writeExtract_pkt, writeSync_pkt]
  · rwa [writeExtract_pkt, writeSync_pkt]
  · rwa [writeMdecode_pkt, writeExtract_pkt, writeSync_pkt]
  · exact packetGood_writeParse s.params d _ (by rw [writeMdecode_pkt, writeExtract_pkt, writeSync_pkt, h])

/-- The completion of any command keeps the packet-result group good. -/
theorem packetGood_complete (c : Cmd) {s : State} (h : PacketGroup.Good s.params s.pkt) :
    PacketGroup.Good s.params (complete c s).pkt := by
  cases c with
  | decode => exact packetGood_decodeFromBits (s := clearPacket s) s.inputBits rfl
  | sync => rwa [complete, completeSync, finish_pkt, writeSync_pkt]
  | extract => rwa [complete, completeExtract, finish_pkt, writeExtract_pkt]
  | mdecode => rwa [complete, completeMdecode, finish_pkt, writeMdecode_pkt]
  | parse => exact packetGood_writeParse s.params s.inputPacket (clearPacket s) rfl

theorem State.Good.complete {c : Cmd} {s : State} (h : s.Good) (hp : s.pending = some c) :
    (Machine.complete c s).Good := by
  obtain ⟨hkeeps, hnone, _, _⟩ := complete_keeps c s
  refine .of_idle ?_ (memoryGood_complete h hp) hnone ?_ <;> rw [hkeeps.params]
  · exact h.capacity_ok
  · exact packetGood_complete c h.packet_good

/-- The issue of a command: a rejection changes CODE and DONE only, and an acceptance has passed the length check. -/
theorem State.Good.issue {s : State} (h : s.Good) (hp : s.pending = none) (c : Cmd) : (issue c s).Good := by
  rcases issue_cases c s with ⟨_, e⟩ | ⟨hfits, e⟩ <;> rw [e]
  · exact .of_idle h.capacity_ok h.memoryGood hp h.packet_good
  · refine ⟨h.capacity_ok, h.mem_wf, h.mem_inBuffers, fun _ _ => rfl, fun d hd => ?_, h.packet_good⟩
    obtain rfl : c = d := Option.some.inj hd
    cases c <;> exact hfits

/-- A command whose byte is written to OP with none pending. -/
theorem State.Good.resultOf {s : State} (h : s.Good) (hp : s.pending = none) (i : Instr) : (resultOf i s).Good := by
  have hpending (c : Cmd) : (Machine.resultOf c.instr s).Good := by
    rw [resultOf_pending, runPending_issue hp]
    exact h.issue hp c
  cases i with
  | decode => exact hpending .decode
  | sync => exact hpending .sync
  | extract => exact hpending .extract
  | mdecode => exact hpending .mdecode
  | parse => exact hpending .parse
  | nop =>
    rw [Machine.resultOf, runImmediate_idle hp]
    exact h
  | clear =>
    rw [Machine.resultOf, runImmediate_idle hp]
    exact .of_idle h.capacity_ok h.memoryGood hp (packetGood_zero _)

/-- A write outside OP stores at a buffer address or not in the buffers at all. -/
theorem memoryGood_busStore {s : State} (h : MemoryGood s.mem) (a : Addr) (v : Byte) : MemoryGood (s.busStore a v).mem := by
  by_cases hbuffer : isBufferAddress s.params a.toNat = true
  · rw [busStore_buffer v hbuffer]
    have hrange := (isBufferAddress_iff _ _).1 hbuffer
    exact h.writeBytes _ [v] (by simp only [ibufBase]; omega) (by simp only [buffersEnd, List.length_singleton]; omega)
  · unfold State.busStore
    dsimp only
    split
    · obtain ⟨e, d, n, f, t, l, hframe⟩ := writeRegister_frame s a.toNat v
      rw [hframe]
      exact h
    · exact h

theorem State.Good.busStore {s : State} (h : s.Good) (hp : s.pending = none) (a : Addr) (v : Byte) :
    (s.busStore a v).Good := by
  obtain ⟨hparams, _, hpending, hpkt, _⟩ := busStore_frame s a v
  refine .of_idle ?_ (memoryGood_busStore h.memoryGood a v) (hpending.trans hp) ?_ <;> rw [hparams]
  · exact h.capacity_ok
  · rw [hpkt]
    exact h.packet_good

/-- A state right after reset is good wherever its parameters are within their limits. -/
theorem State.good_resetCore {s : State} (h : s.params.capacityOk = true) : (resetCore s).Good :=
  .of_idle h ⟨rfl, fun _ hc => absurd hc List.not_mem_nil⟩ rfl (packetGood_zero _)

/-- What is good does not depend on the events still to come. -/
theorem State.Good.withOrder {s : State} (h : s.Good) (es : List Event) : ({ s with order := es } : State).Good :=
  ⟨h.capacity_ok, h.mem_wf, h.mem_inBuffers, h.pending_not_done, fun c hc => by
    have := h.pending_fits c hc
    cases c <;> exact this, h.packet_good⟩

/-- A read gives the host a byte and leaves CORE good (20_memory.md R60). -/
theorem State.Good.hostRead {s : State} (h : s.Good) (a : Addr) : (hostRead a s).Good :=
  ⟨h.capacity_ok, h.mem_wf, h.mem_inBuffers, h.pending_not_done, fun c hc => by
    have := h.pending_fits c hc
    cases c <;> exact this, h.packet_good⟩

/-- No effect of a step makes a good state bad. -/
theorem StepEffect.good {u t : State} (h : StepEffect u t) (hu : u.Good) : t.Good := by
  cases h with
  | unchanged => exact hu
  | completed hp => exact hu.complete hp
  | issued hp i => exact hu.resultOf hp i
  | illegal hp => exact .of_idle hu.capacity_ok hu.memoryGood hp hu.packet_good
  | stored hp a v => exact hu.busStore hp a v
  | read a => exact hu.hostRead a
  | reset => exact State.good_resetCore hu.capacity_ok

end Sys2Proof.Machine
end

section
/-! The statements about what every step keeps and answers (00_scope.md R8, 20_memory.md R64, 40_command_cycle.md R103, R107,
60_exceptions.md R164, R165). -/

namespace Sys2Proof.Machine

/-- Settles O10: every step has an effect, which is a next state (`step_effect`). -/
theorem everyStepAnswersANextState : Obligations.EveryStepAnswersANextState := fun s =>
  let ⟨_, t, hstep, _⟩ := step_effect s
  ⟨t, hstep⟩

/-- Settles O13: a step has one of a few effects (`stepEffect_of_step`), and none of them reaches the parameters
(`StepEffect.params_eq`). -/
theorem noStepWritesTheParameters : Obligations.NoStepWritesTheParameters := by
  intro s t hstep
  obtain ⟨es, heffect⟩ := stepEffect_of_step hstep
  exact heffect.params_eq

/-- Settles O11: a step has one of a few effects (`stepEffect_of_step`), and each keeps a good state good (`StepEffect.good`). -/
theorem everyStepKeepsTheStateGood : Obligations.EveryStepKeepsTheStateGood := by
  intro s t hgood hstep
  obtain ⟨es, heffect⟩ := stepEffect_of_step hstep
  exact heffect.good (hgood.withOrder es)

/-- Settles O12: the defaults are within their limits, no location is listed, nothing is pending and the packet-result group is
the cleared one. -/
theorem resetStateIsGood : Obligations.ResetStateIsGood :=
  .of_idle (by decide) ⟨rfl, fun _ hc => absurd hc List.not_mem_nil⟩ rfl (packetGood_zero _)

end Sys2Proof.Machine
end

section
/-! SUPPORT. Running the machine until its order is used up: how many steps one event takes, a WAIT among them
(40_command_cycle.md R104, 70_reset_and_hazards.md R183). -/

namespace Sys2Proof.Machine

/-- A run of `n` steps or more ends with every event taken and no command pending. -/
def EndsIdle (n : Nat) (s : State) : Prop :=
  ∀ k, n ≤ k → ∃ t, Host.Core.run Sys2Proof.core k s = .next t ∧ t.order = [] ∧ t.pending = none

/-- One step before a run that ends idle. -/
theorem EndsIdle.of_step {s t : State} {n : Nat} (hstep : step s = .next t) (h : EndsIdle n t) : EndsIdle (n + 1) s := by
  intro k hk
  obtain ⟨j, rfl⟩ : ∃ j, k = j + 1 := ⟨k - 1, by omega⟩
  rw [run_succ hstep]
  exact h j (by omega)

theorem EndsIdle.mono {s : State} {m n : Nat} (h : EndsIdle m s) (hle : m ≤ n) : EndsIdle n s :=
  fun k hk => h k (hle.trans hk)

/-- With the order used up and none pending, CORE stays idle however long it runs (60_exceptions.md R173). -/
theorem endsIdle_of_idle {s : State} (ho : s.order = []) (hp : s.pending = none) : EndsIdle 0 s := by
  intro k _
  induction k with
  | zero => exact ⟨s, run_zero s, ho, hp⟩
  | succ k ih => rw [run_succ (step_nil_idle hp ho)]; exact ih (Nat.zero_le k)

/-- With the order used up the ENGINE's step leaves CORE idle. -/
theorem endsIdle_of_nil {s : State} (ho : s.order = []) : EndsIdle 1 s := by
  obtain ⟨t, hengine, _, horder, hp⟩ := engineStep_next s
  have hstep : step s = .next t := by rw [step_eq, ho]; exact hengine
  exact .of_step hstep (endsIdle_of_idle (horder.trans ho) hp)

/-- Every event but a WAIT is taken in one step and leaves the rest of the order. -/
theorem takeEvent_order {e : Event} (hwait : ∀ polls, e ≠ .wait polls) (s : State) :
    ∃ t, takeEvent e s = .next t ∧ t.order = s.order := by
  cases e with
  | read a => exact ⟨_, rfl, rfl⟩
  | write a v =>
    obtain ⟨t, hwrite, _, horder⟩ := hostWrite_next a v s
    exact ⟨t, hwrite, horder⟩
  | wait polls => exact absurd rfl (hwait polls)
  | engine =>
    obtain ⟨t, hengine, _, horder, _⟩ := engineStep_next s
    exact ⟨t, hengine, horder⟩
  | reset => exact ⟨_, rfl, rfl⟩

section
variable {s : State} {es : List Event} {polls : Nat}

/-- A WAIT with none pending reads STATUS once and ends (30_encoding.md R94). -/
theorem step_wait_idle (ho : s.order = .wait polls :: es) (hp : s.pending = none) :
    step s = .next (hostRead 0x0002 { s with order := es }) := by
  rw [step_eq, ho]
  exact pollStatus_idle (s := { s with order := es }) polls hp

/-- A WAIT with a command pending and polls left reads STATUS and goes on (30_encoding.md R94). -/
theorem step_wait_succ (ho : s.order = .wait (polls + 1) :: es) (hp : s.pending ≠ none) :
    step s = .next (hostRead 0x0002 { s with order := .wait polls :: es }) := by
  rw [step_eq, ho]
  exact pollStatus_succ_busy (s := { s with order := es }) polls hp

/-- A WAIT with a command pending and no polls left is the ENGINE's step, and the WAIT stays (70_reset_and_hazards.md R183). -/
theorem step_wait_zero (ho : s.order = .wait 0 :: es) (hp : s.pending ≠ none) : step s = engineStep s := by
  rw [step_eq, ho]
  refine (pollStatus_zero_busy (s := { s with order := es }) hp).trans ?_
  rw [← ho]

/-- A WAIT takes at most its polls, the ENGINE's step and the poll that ends it. -/
theorem endsIdle_wait {n : Nat} (hrest : ∀ t : State, t.order = es → EndsIdle n t) (ho : s.order = .wait polls :: es) :
    EndsIdle (polls + 2 + n) s := by
  have hidle {t : State} {m : Nat} (hto : t.order = .wait m :: es) (htp : t.pending = none) : EndsIdle (n + 1) t :=
    .of_step (step_wait_idle hto htp) (hrest _ rfl)
  induction polls generalizing s with
  | zero =>
    by_cases hp : s.pending = none
    · exact (hidle ho hp).mono (by omega)
    · obtain ⟨t, hengine, _, horder, htp⟩ := engineStep_next s
      exact (EndsIdle.of_step ((step_wait_zero ho hp).trans hengine) (hidle (horder.trans ho) htp)).mono (by omega)
  | succ k ih =>
    by_cases hp : s.pending = none
    · exact (hidle ho hp).mono (by omega)
    · exact (EndsIdle.of_step (step_wait_succ ho hp) (ih rfl)).mono (by omega)

end

/-- The count of steps left bounds the run: by induction on the order, each event at its own cost. -/
theorem endsIdle_stepsLeft {es : List Event} {s : State} (ho : s.order = es) : EndsIdle (stepsLeft es) s := by
  induction es generalizing s with
  | nil => exact endsIdle_of_nil ho
  | cons e es ih =>
    have hevent (hwait : ∀ polls, e ≠ .wait polls) : EndsIdle (1 + stepsLeft es) s := by
      obtain ⟨t, htake, horder⟩ := takeEvent_order hwait { s with order := es }
      have hstep : step s = .next t := by rw [step_eq, ho]; exact htake
      exact (EndsIdle.of_step hstep (ih horder)).mono (by omega)
    cases e with
    | wait polls => exact endsIdle_wait (fun t ht => ih ht) ho
    | read a => exact hevent (by simp)
    | write a v => exact hevent (by simp)
    | engine => exact hevent (by simp)
    | reset => exact hevent (by simp)

end Sys2Proof.Machine
end

section
/-! The statements about the end of an execution and the WAIT loop (40_command_cycle.md R107, 70_reset_and_hazards.md R183,
30_encoding.md R94). -/

namespace Sys2Proof.Machine

/-- Settles O14: the steps that the order has left are enough for each of its events (`endsIdle_stepsLeft`). -/
theorem everyExecutionEndsIdle : Obligations.EveryExecutionEndsIdle := fun _ => endsIdle_stepsLeft rfl _ le_rfl

/-- Settles O60: the three cases of one poll as a step (`step_wait_idle`, `step_wait_succ`, `step_wait_zero`). -/
theorem waitPollsStatus : Obligations.WaitPollsStatus := by
  refine fun s n es ho => ⟨fun hp => step_wait_idle ho hp, fun k hp hn => ?polls, fun c hp hn => ?engine⟩
  case polls =>
    subst hn
    exact step_wait_succ ho hp
  case engine =>
    subst hn
    rw [step_wait_zero ho (by simp [hp]), engineStep, hp]

end Sys2Proof.Machine
end

section
/-! SUPPORT. What an answer of exec says of the state it answers, and the limits on MAX_BITS (00_scope.md R7). -/

namespace Sys2Proof.Machine

/-- What exec of the pending command answers is its completion. -/
theorem complete_eq_of_exec {c : Cmd} {s t : State} (hp : s.pending = some c) (h : exec c.instr s = .next t) :
    complete c s = t :=
  Host.Outcome.next.inj ((exec_complete hp).symm.trans h)

/-- What exec of a pending command answers where none is pending is its issue. -/
theorem issue_eq_of_exec {c : Cmd} {s t : State} (hp : s.pending = none) (h : exec c.instr s = .next t) : issue c s = t :=
  Host.Outcome.next.inj ((exec_issue hp).symm.trans h)

/-- What exec answers is the command's result. -/
theorem resultOf_eq_of_exec {i : Instr} {s t : State} (h : exec i s = .next t) : resultOf i s = t :=
  Host.Outcome.next.inj ((exec_eq i s).symm.trans h)

/-- MAX_BITS is a whole number of bytes (00_scope.md R7). -/
theorem maxBits_mod_eight {p : Params} (h : p.capacityOk = true) : p.maxBits % 8 = 0 := by
  simp only [Params.capacityOk, Params.maxBitsWholeBytes, Bool.and_eq_true, beq_iff_eq] at h
  exact h.2

end Sys2Proof.Machine
end

section
/-! SUPPORT. The run length of a preamble with the framed sync byte after it (41_sync.md R112), and the extractor on the bytes of a
frame (42_extract.md R119). -/

namespace Sys2Proof.Machine

/-- The framed sync byte begins with its start bit 0 and two data bits 1. -/
theorem framed_syncByte : ∃ rest, framed 0xFF = false :: true :: true :: rest := ⟨List.replicate 7 true, by decide⟩

/-- A stream that goes on after a preamble with a 0 and two bits 1 has its first break at the second 1: the preamble alternates,
and its last bit differs from the 0. -/
theorem IsPreamble.isRunLength {pre : Bits} (h : IsPreamble pre) (rest : Bits) :
    IsRunLength (pre ++ false :: true :: true :: rest).length
      (fun i => (pre ++ false :: true :: true :: rest).getD i false) (pre.length + 2) := by
  obtain ⟨halternates, hlast⟩ := h
  have hafter (i : Nat) : (pre ++ false :: true :: true :: rest).getD (pre.length + i) false =
      (false :: true :: true :: rest).getD i false := by
    rw [List.getD_append_right _ _ _ _ (by omega), Nat.add_sub_cancel_left]
  have hwithin {i : Nat} (hi : i < pre.length) :
      (pre ++ false :: true :: true :: rest).getD i false = pre.getD i false := List.getD_append _ _ _ _ hi
  refine .inl ⟨by omega, by simp, (hafter 2).trans (hafter 1).symm, fun k hk1 hk => ?_⟩
  dsimp only
  rcases Nat.lt_trichotomy k pre.length with hlt | rfl | hgt
  · rw [hwithin hlt, hwithin (by omega)]
    exact halternates k hk1 hlt
  · have hone : pre.getD (pre.length - 1) false = true := by
      rw [List.getD_eq_getElem?_getD, ← List.getLast?_eq_getElem?, hlast (by rintro rfl; simp at hk1)]
      rfl
    have hstart := hafter 0
    rw [Nat.add_zero] at hstart
    rw [hstart, hwithin (by omega), hone]
    exact Bool.false_ne_true
  · obtain rfl : k = pre.length + 1 := by omega
    rw [hafter 1]
    have hstart := hafter 0
    rw [Nat.add_zero] at hstart
    rw [Nat.add_sub_cancel, hstart]
    exact Bool.false_ne_true.symm

/-- A preamble before the framed sync byte makes the run its own length and two bits more (41_sync.md R112). -/
theorem runLen_preamble {pre : Bits} (h : IsPreamble pre) (rest : Bits) :
    runLen (pre ++ framed 0xFF ++ rest) = pre.length + 2 := by
  obtain ⟨tail, hframed⟩ := framed_syncByte
  rw [hframed, List.append_assoc, List.cons_append, List.cons_append, List.cons_append]
  exact (isRunLength_runLen _).unique (h.isRunLength (tail ++ rest))

/-- The extractor answers SyncError where any one of the first five bytes is not the sync word's (42_extract.md R116, R117). -/
theorem extractFn_eq_errSync_of_getElem? {f : Bytes} {i : Nat} (hi : i < 5) (h : f[i]? ≠ syncWord[i]?) :
    extractFn f = .errSync := by
  have hne : f.take 5 ≠ syncWord := by
    intro heq
    rw [← heq, List.getElem?_take_of_lt hi] at h
    exact h rfl
  rcases extractFn_cases f with ⟨_, e⟩ | ⟨_, hs, _⟩ | ⟨_, _, hs, _⟩
  · exact e
  all_goals exact absurd hs hne

/-- The extractor gives the symbols of a frame whatever follows its stop byte, where no symbol is itself the stop byte
(42_extract.md R118, R119). -/
theorem extractFn_frame {symbols : Bytes} (h : stopByte ∉ symbols) (rest : Bytes) :
    extractFn (syncWord ++ symbols ++ [stopByte] ++ rest) = .ok symbols := by
  have hshape : syncWord ++ symbols ++ [stopByte] ++ rest = syncWord ++ (symbols ++ stopByte :: rest) := by simp
  have hlength : 5 ≤ (syncWord ++ (symbols ++ stopByte :: rest)).length := by simp [syncWord]
  have htake : (syncWord ++ (symbols ++ stopByte :: rest)).take 5 = syncWord :=
    List.take_left' rfl
  have hdrop : (syncWord ++ (symbols ++ stopByte :: rest)).drop 5 = symbols ++ stopByte :: rest :=
    List.drop_left' rfl
  rw [hshape, extractFn, if_neg (by omega), if_neg (by rw [htake]; simp), hdrop, beforeStop_append h]

end Sys2Proof.Machine
end

section
/-! The statements about the aligned preamble, the bound of SYNC's output and an altered sync byte (41_sync.md R112, R113,
42_extract.md R122). -/

namespace Sys2Proof.Machine

/-- Settles O39: the first break of the stream is in the framed sync byte (`runLen_preamble`). -/
theorem preambleAlignsTheFrame : Obligations.PreambleAlignsTheFrame := fun _ rest h => runLen_preamble h rest

/-- Settles O24: FLEN is 0, or the number of the synchronizer's bytes, which is a tenth of IN_LEN at most (`syncFn_length`). -/
theorem syncOutputFitsItsBuffer : Obligations.SyncOutputFitsItsBuffer := by
  intro s t hcapacity hinLen hpending hexec
  have hmax := maxBits_le hcapacity
  obtain rfl : completeSync s = t := complete_eq_of_exec (c := .sync) hpending hexec
  have htenth : (completeSync s).flen.toNat ≤ s.inLen.toNat / 10 := by
    rcases hsync : syncFn s.inputBits with run | ⟨out, run⟩
    · simp [completeSync, hsync, writeSync]
    · have hlength := syncFn_length hsync
      rw [State.inputBits_length] at hlength
      simp only [completeSync, hsync, writeSync, finish_flen, BitVec.toNat_ofNat]
      exact (Nat.mod_le _ _).trans hlength
  exact ⟨htenth.trans (by omega), htenth⟩

/-- Settles O26: the altered frame has a byte that is not the sync word's (`extractFn_eq_errSync_of_getElem?`), or is too short to
have it at all. -/
theorem alteredSyncByteIsASyncError : Obligations.AlteredSyncByteIsASyncError := by
  intro f i x hi hx
  refine extractFn_eq_errSync_of_getElem? hi fun heq => ?_
  rcases Nat.lt_or_ge i f.length with hlt | hge
  · rw [List.getElem?_set_self hlt] at heq
    exact hx heq.symm
  · rw [List.getElem?_eq_none (by simpa using hge)] at heq
    have hword := List.getElem?_eq_none_iff.1 heq.symm
    simp only [syncWord, List.length_cons, List.length_nil] at hword
    omega

end Sys2Proof.Machine
end

section
/-! SUPPORT. The Manchester decoder on the two symbols of each byte (43_manchester.md R129; 30_encoding.md R80). -/

namespace Sys2Proof.Machine

variable {mt : Vector Byte 16}

/-- In a table of distinct entries the nibble of entry `v` is `v`. -/
theorem nib_getD (h : mt.toList.Nodup) {v : Nat} (hv : v < 16) : nib mt (mt.toList.getD v 0) = some v := by
  have hlength : v < mt.toList.length := by simpa using hv
  have hentry : mt.toList.getD v 0 = mt.toList[v] := List.getD_eq_getElem _ _ hlength
  have hnibble : IsNibble mt (mt.toList[v]) v := by
    refine ⟨List.getElem?_eq_getElem hlength, fun u hu heq => ?_⟩
    obtain ⟨hul, huv⟩ := List.getElem?_eq_some_iff.1 heq
    exact hu.ne (h.getElem_inj_iff.1 huv)
  rw [hentry, hnibble.nib_eq]

/-- A byte's two symbols at the front decode to the byte. -/
theorem decodePairs_symbolsOf_append (h : mt.toList.Nodup) (b : Byte) (rest : Bytes) :
    decodePairs mt (symbolsOf mt b ++ rest) = (decodePairs mt rest).map (b :: ·) := by
  have hlt := b.isLt
  have hbyte : BitVec.ofNat 8 (b.toNat / 16 * 16 + b.toNat % 16) = b := by
    rw [Nat.div_add_mod', BitVec.ofNat_toNat, BitVec.setWidth_eq]
  rw [symbolsOf, List.cons_append, List.cons_append, List.nil_append, decodePairs_cons_cons,
    pairByte_eq (nib_getD h (by omega)) (nib_getD h (by omega)), hbyte]

/-- The symbols of a byte sequence at the front decode to the sequence (43_manchester.md R129). -/
theorem decodePairs_flatMap_append (h : mt.toList.Nodup) (d rest : Bytes) :
    decodePairs mt (d.flatMap (symbolsOf mt) ++ rest) = (decodePairs mt rest).map (d ++ ·) := by
  induction d with
  | nil => simp
  | cons b d ih =>
    rw [List.flatMap_cons, List.append_assoc, decodePairs_symbolsOf_append h, ih, Option.map_map]
    rfl

theorem mdecodeFn_symbols (h : mt.toList.Nodup) (d : Bytes) : mdecodeFn mt (d.flatMap (symbolsOf mt)) = .ok d := by
  have hdecode := decodePairs_flatMap_append h d []
  rw [List.append_nil, decodePairs_nil, Option.map_some, List.append_nil] at hdecode
  rw [mdecodeFn, hdecode]

/-- One more pair with a byte that is no entry makes the sequence invalid (43_manchester.md R125). -/
theorem mdecodeFn_symbols_bad (h : mt.toList.Nodup) (d : Bytes) {x y : Byte} (hbad : x ∉ mt.toList ∨ y ∉ mt.toList) :
    mdecodeFn mt (d.flatMap (symbolsOf mt) ++ [x, y]) = .err := by
  have hpair : decodePairs mt [x, y] = none := by rw [decodePairs_cons_cons, pairByte_none hbad]
  rw [mdecodeFn, decodePairs_flatMap_append h, hpair, Option.map_none]

end Sys2Proof.Machine
end

section
/-! The statement about the Manchester round trip (43_manchester.md R129). -/

namespace Sys2Proof.Machine

/-- Settles O28: the symbols of a sequence decode to it (`mdecodeFn_symbols`), and a further pair fails where either of its bytes is
no entry (`mdecodeFn_symbols_bad`). -/
theorem manchesterRoundTrip : Obligations.ManchesterRoundTrip := by
  intro p d hdistinct
  have hnodup : p.mt.toList.Nodup := of_decide_eq_true hdistinct
  exact ⟨mdecodeFn_symbols hnodup d, fun x y hx =>
    ⟨mdecodeFn_symbols_bad hnodup d (.inl hx), mdecodeFn_symbols_bad hnodup d (.inr hx)⟩⟩

end Sys2Proof.Machine
end

section
/-! SUPPORT. The layout of a packet: where its fields end, and that two packets which agree on their bytes have the same layout and
the same field values (30_encoding.md R83 to R88). -/

namespace Sys2Proof.Machine

/-- The flags of the layout are the header's entry of HF (44_parse.md R133). -/
theorem packetLayout_flags (p : Params) (d : Nat → Byte) : (packetLayout p d).flags = headerFlags p.hf (d 0) :=
  (headerFlags_eq p.hf (d 0)).symm

/-- The payload begins after the header, 3 bytes for each address bit, 1 for each parameter bit, the command and the length
(44_parse.md R143). -/
theorem packetLayout_payload (p : Params) (d : Nat → Byte) :
    (packetLayout p d).payload =
      1 + 3 * (((packetLayout p d).flags.getLsbD 0).toNat + ((packetLayout p d).flags.getLsbD 1).toNat +
        ((packetLayout p d).flags.getLsbD 2).toNat) + (((d 0).getLsbD 1).toNat + ((d 0).getLsbD 0).toNat) + 2 + 1 := by
  simp only [packetLayout]
  omega

section
variable {n q : Nat} {f g : Nat → Byte}

/-- Every field before the payload ends where the payload begins, at the latest. -/
theorem packetLayout_ends_le_payload (p : Params) (d : Nat → Byte) :
    0 < (packetLayout p d).payload ∧
      ((packetLayout p d).flags.getLsbD 0 = true → (packetLayout p d).addr0 + 3 ≤ (packetLayout p d).payload) ∧
      ((packetLayout p d).flags.getLsbD 1 = true → (packetLayout p d).addr1 + 3 ≤ (packetLayout p d).payload) ∧
      ((packetLayout p d).flags.getLsbD 2 = true → (packetLayout p d).addr2 + 3 ≤ (packetLayout p d).payload) ∧
      ((d 0).getLsbD 1 = true → (packetLayout p d).param0 < (packetLayout p d).payload) ∧
      ((d 0).getLsbD 0 = true → (packetLayout p d).param1 < (packetLayout p d).payload) ∧
      (packetLayout p d).command + 2 ≤ (packetLayout p d).payload ∧
      (packetLayout p d).length < (packetLayout p d).payload := by
  have hone {b : Bool} (hb : b = true) : b.toNat = 1 := by rw [hb]; rfl
  simp only [packetLayout]
  refine ⟨by omega, fun hb => ?_, fun hb => ?_, fun hb => ?_, fun hb => ?_, fun hb => ?_, by omega, by omega⟩
  all_goals
    have := hone hb
    omega

theorem addressValue_congr (fa : FieldAssembly) (h : ∀ i, i < n → g i = f i) (hq : q + 3 ≤ n) :
    addressValue fa g q = addressValue fa f q := by
  simp only [addressValue, h q (by omega), h (q + 1) (by omega), h (q + 2) (by omega)]

theorem commandValue_congr (fa : FieldAssembly) (h : ∀ i, i < n → g i = f i) (hq : q + 2 ≤ n) :
    commandValue fa g q = commandValue fa f q := by
  simp only [commandValue, h q (by omega), h (q + 1) (by omega)]

/-- The layout depends on the header and the length byte only. -/
theorem packetLayout_congr {p : Params} (h : ∀ i, i < n → g i = f i) (hfits : (packetLayout p f).payload ≤ n) :
    packetLayout p g = packetLayout p f := by
  have hheader : g 0 = f 0 := h 0 (by rw [packetLayout_payload] at hfits; omega)
  simp only [packetLayout] at hfits
  simp only [packetLayout, hheader]
  rw [h _ (by omega)]

end

/-- An address field as the parser puts it together has the value of its bytes (30_encoding.md R86, R88). -/
theorem toNat_asm3 (fa : FieldAssembly) (d : Bytes) (q : Nat) :
    (asm3 fa d q).toNat = addressValue fa (byteAt d) q := by
  cases fa <;> simp only [asm3, addressValue, toNat_packetAddr]
  omega

/-- The command field as the parser puts it together has the value of its bytes (30_encoding.md R87, R88). -/
theorem toNat_asm2 (fa : FieldAssembly) (d : Bytes) (q : Nat) :
    (asm2 fa d q).toNat = commandValue fa (byteAt d) q := by
  cases fa <;> simp only [asm2, commandValue, toNat_half]
  omega

/-- A gated field's value, absent fields 0. -/
theorem toNat_gate {w : Nat} (g : Bool) (x : BitVec w) : (if g then x else 0).toNat = if g then x.toNat else 0 := by
  cases g <;> simp

end Sys2Proof.Machine
end

section
/-! SUPPORT. A successful parse in the words of the claims (`ParsedGroup`), on a byte sequence and on `DBUF[0 .. DLEN)`
(44_parse.md R133 to R142). -/

namespace Sys2Proof.Machine

/-- A payload of at most 255 bytes at an offset of the packet, padded, reads as the packet's bytes and then 0 (44_parse.md
R142). -/
theorem getD_padTo_payload {d : Bytes} {q len : Nat} {payload : Bytes} (h : payload = (d.drop q).take len) {i : Nat}
    (hi : i < 255) :
    (padTo 255 payload).toList.getD i 0 = if i < payload.length then byteAt d (q + i) else 0 := by
  rw [getD_padTo, if_pos hi]
  split
  · rename_i hlt
    have hlen : i < len := by rw [h, List.length_take] at hlt; omega
    rw [h, List.getD_eq_getElem?_getD, List.getElem?_take_of_lt hlen, List.getElem?_drop, ← List.getD_eq_getElem?_getD,
      byteAt]
  · rename_i hge
    rw [List.getD_eq_default _ _ (by omega)]

/-- Where the fields before the payload fit and the payload step answers, the parser succeeds with the group that the layout
gives. -/
theorem parsedGroup_of_takePayload {p : Params} {d payload : Bytes} {pos : Nat} (hlength : d.length < 2 ^ 16)
    (hfits : (packetLayout p (byteAt d)).payload ≤ d.length)
    (htake : takePayload p.payloadShortfall (byteAt d (packetLayout p (byteAt d)).length).toNat d
      (packetLayout p (byteAt d)).payload = .ok (payload, pos)) :
    ∃ pk, parseFields p d = .ok (pk, pos) ∧ ParsedGroup p (byteAt d) payload.length pos (pk.group 0 pos) := by
  obtain ⟨_, hpos, hlen, hpayload, _⟩ := takePayload_ok htake hfits
  have hparse := parseFields_fits hfits
  rw [htake] at hparse
  refine ⟨_, hparse, rfl, rfl, rfl, ?_, ?_, ?_, rfl, rfl, toNat_asm2 .., rfl, ?plen, rfl, ?pcons,
    fun i hi => getD_padTo_payload hpayload hi⟩
  case plen =>
    have hbyte := (byteAt d (packetLayout p (byteAt d)).length).isLt
    exact (BitVec.toNat_ofNat ..).trans (Nat.mod_eq_of_lt (show payload.length < 256 by omega))
  case pcons => exact (BitVec.toNat_ofNat ..).trans (Nat.mod_eq_of_lt (by omega))
  all_goals
    rw [← toNat_asm3]
    exact toNat_gate _ _

/-- The words of the claims depend on the bytes of the packet only. -/
theorem ParsedGroup.congr {p : Params} {f g : Nat → Byte} {n stored used : Nat} {k : PacketGroup}
    (hk : ParsedGroup p f stored used k) (h : ∀ i, i < n → g i = f i)
    (hfits : (packetLayout p f).payload + stored ≤ n) : ParsedGroup p g stored used k := by
  have hlayout := packetLayout_congr h (show (packetLayout p f).payload ≤ n by omega)
  obtain ⟨h0, ha0, ha1, ha2, hp0, hp1, hcommand, hlength⟩ := packetLayout_ends_le_payload p f
  have hheader : g 0 = f 0 := h 0 (by omega)
  rw [← hk.flags] at ha0 ha1 ha2
  have haddress {b : Bool} {q : Nat} (hq : b = true → q + 3 ≤ (packetLayout p f).payload) :
      (if b then addressValue p.fieldAssembly g q else 0) = if b then addressValue p.fieldAssembly f q else 0 :=
    ite_congr rfl (fun hb => addressValue_congr _ h (by have := hq hb; omega)) fun _ => rfl
  have hparam {b : Bool} {q : Nat} (hq : b = true → q < (packetLayout p f).payload) :
      (if b then g q else 0) = if b then f q else 0 :=
    ite_congr rfl (fun hb => h q (by have := hq hb; omega)) fun _ => rfl
  constructor
  case valid => exact hk.valid
  case header => rw [hheader, hk.header]
  case flags => rw [hlayout, hk.flags]
  case addr0 => rw [hlayout, haddress ha0, hk.addr0]
  case addr1 => rw [hlayout, haddress ha1, hk.addr1]
  case addr2 => rw [hlayout, haddress ha2, hk.addr2]
  case param0 => rw [hlayout, hheader, hparam hp0, hk.param0]
  case param1 => rw [hlayout, hheader, hparam hp1, hk.param1]
  case pcmd => rw [hlayout, commandValue_congr _ h (by omega), hk.pcmd]
  case len => rw [hlayout, h _ (by omega), hk.len]
  case plen => exact hk.plen
  case csum => exact hk.csum
  case pcons => exact hk.pcons
  case payload =>
    intro i hi
    rw [hlayout, hk.payload i hi]
    exact ite_congr rfl (fun hlt => (h _ (by omega)).symm) fun _ => rfl

/-- A payload that fits is taken whole (44_parse.md R139). -/
theorem takePayload_fits {ps : PayloadShortfall} {len pos : Nat} {d : Bytes} (h : pos + len ≤ d.length) :
    takePayload ps len d pos = .ok ((d.drop pos).take len, pos + len) := if_pos h

/-- A payload that does not fit is an error with PAYLOAD_SHORTFALL = MALFORMED (44_parse.md R139). -/
theorem takePayload_malformed {len pos : Nat} {d : Bytes} (h : d.length < pos + len) :
    takePayload .malformed len d pos = .error pos := if_neg (by omega)

/-- A payload that does not fit is cut short with PAYLOAD_SHORTFALL = TRUNCATE (44_parse.md R139). -/
theorem takePayload_truncate {len pos : Nat} {d : Bytes} (h : d.length < pos + len) :
    takePayload .truncate len d pos = .ok (d.drop pos, d.length) := if_neg (by omega)

/-- The layout of a packet in DBUF, where every field before the payload is within DLEN. -/
theorem packetLayout_inputPacket {s : State} (hfits : (packetLayout s.params s.dbuf).payload ≤ s.dlen.toNat) :
    packetLayout s.params (byteAt s.inputPacket) = packetLayout s.params s.dbuf :=
  packetLayout_congr (fun _ hi => s.byteAt_inputPacket hi) hfits

/-- The length byte of a packet in DBUF, where every field before the payload is within DLEN. -/
theorem byteAt_inputPacket_length {s : State} (hfits : (packetLayout s.params s.dbuf).payload ≤ s.dlen.toNat) :
    byteAt s.inputPacket (packetLayout s.params s.dbuf).length = s.dbuf (packetLayout s.params s.dbuf).length := by
  obtain ⟨_, _, _, _, _, _, _, hlt⟩ := packetLayout_ends_le_payload s.params s.dbuf
  exact s.byteAt_inputPacket (by omega)

/-- A packet in DBUF whose payload does not fit, with PAYLOAD_SHORTFALL = MALFORMED: the parser stops at the payload. -/
theorem parseFields_inputPacket_short {s : State} (hfits : (packetLayout s.params s.dbuf).payload ≤ s.dlen.toNat)
    (hshort : s.dlen.toNat < (packetLayout s.params s.dbuf).payloadEnd) (hmode : s.params.payloadShortfall = .malformed) :
    parseFields s.params s.inputPacket = .error (packetLayout s.params s.dbuf).payload := by
  have hpayload : s.inputPacket.length <
      (packetLayout s.params s.dbuf).payload + (s.dbuf (packetLayout s.params s.dbuf).length).toNat := by
    rwa [State.inputPacket_length]
  have hlayout := packetLayout_inputPacket hfits
  rw [parseFields_fits (by rwa [hlayout, State.inputPacket_length]), hlayout, byteAt_inputPacket_length hfits, hmode,
    takePayload_malformed hpayload]

/-- PARSE where the sum is 0 and the payload step answers, on `DBUF[0 .. DLEN)`: OK, and the group that the layout gives
(44_parse.md R142). -/
theorem completeParse_of_takePayload {s : State} {payload : Bytes} {pos : Nat} (hsum : checksum s.inputPacket = 0)
    (hfits : (packetLayout s.params s.dbuf).payload ≤ s.dlen.toNat)
    (htake : takePayload s.params.payloadShortfall (s.dbuf (packetLayout s.params s.dbuf).length).toNat s.inputPacket
      (packetLayout s.params s.dbuf).payload = .ok (payload, pos)) :
    ∃ k, completeParse s = finish .ok { s with pkt := k } ∧ ParsedGroup s.params s.dbuf payload.length pos k := by
  have hlayout := packetLayout_inputPacket hfits
  obtain ⟨hpos, hend, _⟩ := takePayload_ok htake (by rwa [State.inputPacket_length])
  rw [State.inputPacket_length] at hend
  obtain ⟨pk, hparse, hgroup⟩ := parsedGroup_of_takePayload (p := s.params) (d := s.inputPacket)
    (by rw [State.inputPacket_length]; exact s.dlen.isLt) (by rwa [hlayout, State.inputPacket_length])
    (by rw [hlayout, byteAt_inputPacket_length hfits]; exact htake)
  refine ⟨pk.group 0 pos, ?_, hgroup.congr (fun i hi => (s.byteAt_inputPacket hi).symm) (by rw [hlayout]; omega)⟩
  simp only [completeParse, parseFn, hsum, hparse, ne_eq, not_true, if_false, parseCode, writeParse, clearPacket]

end Sys2Proof.Machine
end

section
/-! The statements about PARSE of a packet with all its fields before the payload, and about the parser's count of the bytes it
consumes (44_parse.md R130, R139, R142, R143). -/

namespace Sys2Proof.Machine

/-- Settles O31: the payload fits, so it is taken whole (`takePayload_fits`), and PARSE leaves the group of the layout
(`completeParse_of_takePayload`). -/
theorem parseCompletes : Obligations.ParseCompletes := by
  intro s hpending hsum _ hend
  have hfits : (packetLayout s.params s.dbuf).payload + (s.dbuf (packetLayout s.params s.dbuf).length).toNat ≤
      s.dlen.toNat := hend
  obtain ⟨k, hcomplete, hgroup⟩ := completeParse_of_takePayload (State.checksum_inputPacket_eq_zero hsum) (by omega)
    (takePayload_fits (by rwa [State.inputPacket_length]))
  rw [List.length_take, List.length_drop, State.inputPacket_length, Nat.min_eq_left (by omega)] at hgroup
  exact ⟨_, (exec_complete (c := .parse) hpending).trans (congrArg _ hcomplete), rfl, hgroup⟩

/-- Settles O33: the payload does not fit, so with MALFORMED the parser stops there (`parseFields_inputPacket_short`), and with
TRUNCATE it takes the bytes there are (`takePayload_truncate`). -/
theorem parseShortPayload : Obligations.ParseShortPayload := by
  intro s hpending hsum _ hfits hshort
  have hchecksum := State.checksum_inputPacket_eq_zero hsum
  refine ⟨fun hmode => ?malformed, fun hmode => ?truncate⟩
  case malformed =>
    have hcomplete := completeParse_malformed hchecksum (parseFields_inputPacket_short hfits hshort hmode)
    exact (exec_complete (c := .parse) hpending).trans (congrArg _ hcomplete)
  case truncate =>
    obtain ⟨k, hcomplete, hgroup⟩ := completeParse_of_takePayload hchecksum hfits
      (by rw [hmode]; exact takePayload_truncate (by rwa [State.inputPacket_length]))
    rw [List.length_drop, State.inputPacket_length] at hgroup
    exact ⟨_, (exec_complete (c := .parse) hpending).trans (congrArg _ hcomplete), rfl, hgroup⟩

/-- Settles O41: what a successful parse consumes is all before the payload and the payload (`parseFields_ok`), and the layout
counts the former (`packetLayout_payload`). -/
theorem gatedFieldsAreCounted : Obligations.GatedFieldsAreCounted := by
  intro p d pk pos hparse
  obtain ⟨hflags, _, _, _, _, _, hlen, _, hpos, hend, hheader⟩ := parseFields_ok hparse
  rw [packetLayout_payload, packetLayout_flags, ← hheader, ← hflags] at hpos
  exact ⟨hpos, hend, hlen⟩

/-- Settles O29: the rolling checksum is the sum, reduced once at the end (`checksum_eq_ofNat_sum`). -/
theorem checksumIsTheSumModulo256 : Obligations.ChecksumIsTheSumModulo256 := fun d => by
  rw [checksum_eq_ofNat_sum, BitVec.toNat_ofNat]

end Sys2Proof.Machine
end

section
/-! SUPPORT. The bytes of a well-formed packet, part by part, and what the parser reads of them (30_encoding.md R83 to R90,
44_parse.md R145). -/

namespace Sys2Proof.Machine

/-- A part of a packet that is sent where its gate is open (30_encoding.md R84, R85). -/
def gatedPart (g : Bool) (part : Bytes) : Bytes := if g then part else []

@[simp] theorem gatedPart_true (part : Bytes) : gatedPart true part = part := rfl

@[simp] theorem gatedPart_length (g : Bool) (part : Bytes) : (gatedPart g part).length = part.length * g.toNat := by
  cases g <;> simp [gatedPart]

/-- The parts of a packet before its payload, in the order of 30_encoding.md R83. -/
def PacketValues.parts (v : PacketValues) (hf : Vector Byte 16) : List Bytes :=
  [[v.header], gatedPart ((v.flags hf).getLsbD 0) (addressBytes v.addr0),
    gatedPart ((v.flags hf).getLsbD 1) (addressBytes v.addr1), gatedPart ((v.flags hf).getLsbD 2) (addressBytes v.addr2),
    gatedPart (v.header.getLsbD 1) [v.param0], gatedPart (v.header.getLsbD 0) [v.param1],
    [BitVec.ofNat 8 (v.pcmd.toNat / 256), BitVec.ofNat 8 v.pcmd.toNat], [BitVec.ofNat 8 v.payload.length]]

/-- The bytes before part `i` of a packet. -/
def PacketValues.before (v : PacketValues) (hf : Vector Byte 16) (i : Nat) : Bytes := ((v.parts hf).take i).flatten

/-- The body of a packet is its parts and its payload. -/
theorem PacketValues.body_eq (v : PacketValues) (hf : Vector Byte 16) : v.body hf = v.before hf 8 ++ v.payload := by
  simp [PacketValues.body, PacketValues.before, PacketValues.parts, gatedPart]

/-- Part `i` of a packet stands after the parts before it. -/
theorem PacketValues.bytes_split (v : PacketValues) (hf : Vector Byte 16) {i : Nat} {part : Bytes}
    (h : (v.parts hf)[i]? = some part) : ∃ rest, v.bytes hf = v.before hf i ++ (part ++ rest) := by
  obtain ⟨hi, rfl⟩ := List.getElem?_eq_some_iff.1 h
  have hflatten : v.before hf 8 = v.before hf i ++ ((v.parts hf)[i] ++ ((v.parts hf).drop (i + 1)).flatten) := by
    rw [PacketValues.before, PacketValues.before, ← List.flatten_cons, ← List.drop_eq_getElem_cons hi, ← List.flatten_append,
      List.take_append_drop]
    rfl
  rw [PacketValues.bytes, PacketValues.body_eq, hflatten, List.append_assoc, List.append_assoc, List.append_assoc]
  exact ⟨_, rfl⟩

section
variable (pre rest : Bytes)

/-- A byte of what follows `pre`. -/
theorem byteAt_append_right (i : Nat) : byteAt (pre ++ rest) (pre.length + i) = byteAt rest i := by
  rw [byteAt, List.getD_append_right _ _ _ _ (by omega), Nat.add_sub_cancel_left, byteAt]

/-- One byte after `pre` is read back. -/
theorem byteAt_part (b : Byte) : byteAt (pre ++ ([b] ++ rest)) pre.length = b :=
  byteAt_append_right pre ([b] ++ rest) 0

/-- The three bytes of an address after `pre` are put together to the address (30_encoding.md R86). -/
theorem asm3_addressBytes (a : PacketAddr) :
    asm3 .successive (pre ++ (addressBytes a ++ rest)) pre.length = a := by
  have hlt := a.isLt
  have h0 := byteAt_append_right pre (addressBytes a ++ rest) 0
  have h1 := byteAt_append_right pre (addressBytes a ++ rest) 1
  have h2 := byteAt_append_right pre (addressBytes a ++ rest) 2
  apply BitVec.eq_of_toNat_eq
  rw [Nat.add_zero] at h0
  rw [asm3, toNat_packetAddr, h0, h1, h2]
  simp only [addressBytes, byteAt, List.cons_append, List.nil_append, List.getD_cons_zero, List.getD_cons_succ,
    BitVec.toNat_ofNat]
  omega

/-- The two bytes of a command after `pre` are put together to the command (30_encoding.md R87). -/
theorem asm2_commandBytes (c : Half) :
    asm2 .successive (pre ++ ([BitVec.ofNat 8 (c.toNat / 256), BitVec.ofNat 8 c.toNat] ++ rest)) pre.length = c := by
  have hlt := c.isLt
  have h0 := byteAt_append_right pre ([BitVec.ofNat 8 (c.toNat / 256), BitVec.ofNat 8 c.toNat] ++ rest) 0
  have h1 := byteAt_append_right pre ([BitVec.ofNat 8 (c.toNat / 256), BitVec.ofNat 8 c.toNat] ++ rest) 1
  apply BitVec.eq_of_toNat_eq
  rw [Nat.add_zero] at h0
  rw [asm2, toNat_half, h0, h1]
  simp only [byteAt, List.cons_append, List.nil_append, List.getD_cons_zero, List.getD_cons_succ, BitVec.toNat_ofNat]
  omega

end

section
variable (v : PacketValues) (p : Params)

theorem PacketValues.byteAt_header : byteAt (v.bytes p.hf) 0 = v.header := by
  obtain ⟨rest, hbytes⟩ := v.bytes_split p.hf (i := 0) rfl
  rw [hbytes]
  exact byteAt_part [] rest v.header

theorem PacketValues.layout_flags : (packetLayout p (byteAt (v.bytes p.hf))).flags = v.flags p.hf := by
  rw [packetLayout, v.byteAt_header]
  rfl

/-- The layout of a well-formed packet: each field begins where the parts before it end. -/
theorem PacketValues.layout_places :
    (packetLayout p (byteAt (v.bytes p.hf))).addr0 = (v.before p.hf 1).length ∧
      (packetLayout p (byteAt (v.bytes p.hf))).addr1 = (v.before p.hf 2).length ∧
      (packetLayout p (byteAt (v.bytes p.hf))).addr2 = (v.before p.hf 3).length ∧
      (packetLayout p (byteAt (v.bytes p.hf))).param0 = (v.before p.hf 4).length ∧
      (packetLayout p (byteAt (v.bytes p.hf))).param1 = (v.before p.hf 5).length ∧
      (packetLayout p (byteAt (v.bytes p.hf))).command = (v.before p.hf 6).length ∧
      (packetLayout p (byteAt (v.bytes p.hf))).length = (v.before p.hf 7).length ∧
      (packetLayout p (byteAt (v.bytes p.hf))).payload = (v.before p.hf 8).length := by
  have hflags : p.hf.toList.getD (v.header.toNat / 4 % 16) 0 = v.flags p.hf := rfl
  simp only [packetLayout, v.byteAt_header, hflags, PacketValues.before, PacketValues.parts, List.take_succ_cons,
    List.take_zero, List.flatten_cons, List.flatten_nil, List.append_nil, List.length_append, List.length_cons,
    List.length_nil, gatedPart_length, addressBytes, true_and]
  omega

/-- A gated field of a well-formed packet: its value where it is sent, else 0. -/
theorem PacketValues.gate_value {α : Type} [Zero α] {i k : Nat} {g : Bool} {part : Bytes} {value : Bytes → Nat → α} {x : α}
    (hpart : (v.parts p.hf)[i]? = some (gatedPart g part)) (hk : k = (v.before p.hf i).length)
    (hvalue : ∀ pre rest, value (pre ++ (part ++ rest)) pre.length = x) :
    (if g then value (v.bytes p.hf) k else 0) = if g then x else 0 := by
  refine ite_congr rfl (fun hg => ?_) fun _ => rfl
  rw [hg, gatedPart_true] at hpart
  obtain ⟨rest, hbytes⟩ := v.bytes_split p.hf hpart
  rw [hbytes, hk, hvalue]

/-- The packet that the parser makes of the values. -/
def PacketValues.fields (hf : Vector Byte 16) : PacketFields where
  header := v.header
  flags := v.flags hf
  addr0 := if (v.flags hf).getLsbD 0 then v.addr0 else 0
  addr1 := if (v.flags hf).getLsbD 1 then v.addr1 else 0
  addr2 := if (v.flags hf).getLsbD 2 then v.addr2 else 0
  param0 := if v.header.getLsbD 1 then v.param0 else 0
  param1 := if v.header.getLsbD 0 then v.param1 else 0
  pcmd := v.pcmd
  len := BitVec.ofNat 8 v.payload.length
  payload := v.payload

theorem PacketValues.fields_group (hf : Vector Byte 16) : (v.fields hf).group 0 (v.body hf).length = v.group hf := rfl

/-- The checksum byte makes the sum of all bytes 0 modulo 256 (30_encoding.md R90). -/
theorem PacketValues.checksum_bytes (hf : Vector Byte 16) : checksum (v.bytes hf) = 0 := by
  rw [PacketValues.bytes, checksum_eq_ofNat_sum, List.map_append, List.sum_append]
  apply BitVec.eq_of_toNat_eq
  simp only [List.map_cons, List.map_nil, List.sum_cons, List.sum_nil, BitVec.toNat_ofNat]
  show _ = 0
  omega

/-- The payload step takes exactly the payload: the checksum byte is left (44_parse.md R139, R140). -/
theorem PacketValues.takePayload_bytes (hf : Vector Byte 16) (ps : PayloadShortfall) :
    takePayload ps v.payload.length (v.bytes hf) (v.before hf 8).length = .ok (v.payload, (v.body hf).length) := by
  rw [PacketValues.bytes, PacketValues.body_eq, List.append_assoc]
  rw [takePayload_fits (by simp), List.drop_left, List.take_left, List.length_append]

/-- The parser reads each part of a well-formed packet at the place the layout gives it (44_parse.md R145). -/
theorem PacketValues.parseFields_bytes (hfa : p.fieldAssembly = .successive) (hpayload : v.payload.length ≤ 255) :
    parseFields p (v.bytes p.hf) = .ok (v.fields p.hf, (v.body p.hf).length) := by
  obtain ⟨ha0, ha1, ha2, hp0, hp1, hcmd, hlen, hpay⟩ := v.layout_places p
  obtain ⟨rest7, hbytes7⟩ := v.bytes_split p.hf (i := 7) rfl
  obtain ⟨rest6, hbytes6⟩ := v.bytes_split p.hf (i := 6) rfl
  have hlenByte : byteAt (v.bytes p.hf) (packetLayout p (byteAt (v.bytes p.hf))).length =
      BitVec.ofNat 8 v.payload.length := by
    rw [hlen, hbytes7]
    exact byteAt_part ..
  have hcommand : asm2 .successive (v.bytes p.hf) (packetLayout p (byteAt (v.bytes p.hf))).command = v.pcmd := by
    rw [hcmd, hbytes6]
    exact asm2_commandBytes ..
  have hlenNat : (BitVec.ofNat 8 v.payload.length).toNat = v.payload.length :=
    (BitVec.toNat_ofNat ..).trans (Nat.mod_eq_of_lt (by omega))
  have hfits : (v.before p.hf 8).length ≤ (v.bytes p.hf).length := by
    rw [PacketValues.bytes, PacketValues.body_eq, List.length_append, List.length_append]
    omega
  rw [parseFields_fits (hpay ▸ hfits), hlenByte, hlenNat, hpay, v.takePayload_bytes p.hf]
  simp only [hfa, hcommand, v.layout_flags p, v.byteAt_header p]
  rw [v.gate_value p (i := 1) rfl ha0 fun pre rest => asm3_addressBytes pre rest v.addr0,
    v.gate_value p (i := 2) rfl ha1 fun pre rest => asm3_addressBytes pre rest v.addr1,
    v.gate_value p (i := 3) rfl ha2 fun pre rest => asm3_addressBytes pre rest v.addr2,
    v.gate_value p (i := 4) rfl hp0 fun pre rest => byteAt_part pre rest v.param0,
    v.gate_value p (i := 5) rfl hp1 fun pre rest => byteAt_part pre rest v.param1]
  rfl

theorem PacketValues.parseFn_bytes (hfa : p.fieldAssembly = .successive) (hpayload : v.payload.length ≤ 255) :
    parseFn p (v.bytes p.hf) = .ok (v.fields p.hf) 0 (v.body p.hf).length := by
  simp only [parseFn, v.checksum_bytes, v.parseFields_bytes p hfa hpayload, ne_eq, not_true, if_false]

end

end Sys2Proof.Machine
end

section
/-! The statement about PARSE of a well-formed packet (44_parse.md R145). -/

namespace Sys2Proof.Machine

/-- Settles O34: the parser reads the values back (`PacketValues.parseFn_bytes`), and the group it leaves shows them
(`PacketValues.fields_group`). -/
theorem wellFormedPacketRoundTrip : Obligations.WellFormedPacketRoundTrip := by
  intro s v hpending hfa hpayload hinput
  have hcomplete : completeParse s = finish .ok { s with pkt := v.group s.params.hf } := by
    rw [completeParse, hinput, v.parseFn_bytes s.params hfa hpayload, writeParse, v.fields_group]
    rfl
  exact (exec_complete (c := .parse) hpending).trans (congrArg _ hcomplete)

end Sys2Proof.Machine
end

section
/-! SUPPORT. DECODE where every stage succeeds, what the synchronizer makes of a well-formed frame, and each stage's stored output as
the input of the next (40_command_cycle.md R96, R100, 45_decode.md R146, R150). -/

namespace Sys2Proof.Machine

/-- The bits of a frame are its framed bytes, the sync byte FF the first (30_encoding.md R79). -/
theorem frameBits_eq (symbols : Bytes) :
    frameBits symbols = (0xFF :: ([0x00, 0x33, 0x55, 0x53] ++ symbols ++ [stopByte])).flatMap framed := rfl

/-- The state that the first three stages of DECODE leave, where they succeed. -/
def stagesWritten (s : State) (f : Bytes) (run : Nat) (symbols d : Bytes) : State :=
  writeMdecode (.ok d) (writeExtract (.ok symbols) (writeSync (.ok f run) s))

/-- DECODE where the first three stages succeed ends with the parser's result. -/
theorem decodeFromBits_of_ok {bits : Bits} {s : State} {f symbols d : Bytes} {run : Nat} (hsync : syncFn bits = .ok f run)
    (hextract : extractFn f = .ok symbols) (hmdecode : mdecodeFn s.params.mt symbols = .ok d) :
    decodeFromBits bits s =
      finish (parseCode (parseFn s.params d)) (writeParse (parseFn s.params d) (stagesWritten s f run symbols d)) := by
  rcases decodeFromBits_cases bits s with ⟨_, h, _⟩ | ⟨_, _, h, hstages⟩ <;> rw [hsync] at h <;> cases h
  rcases hstages with ⟨h, _⟩ | ⟨h, _⟩ | ⟨_, h, hstages⟩ <;> rw [hextract] at h <;> cases h
  rcases hstages with ⟨h, _⟩ | ⟨_, h, e⟩ <;> rw [hmdecode] at h <;> cases h
  exact e

/-- The synchronizer on an aligned preamble, framed bytes and anything after them: the bytes, and what the rest de-frames to
(41_sync.md R110 to R112). -/
theorem syncFn_framed {pre : Bits} (hpre : IsPreamble pre) (l : Bytes) (junk : Bits) :
    ∃ rest, syncFn (pre ++ (0xFF :: l).flatMap framed ++ junk) = .ok ((0xFF :: l) ++ rest) (pre.length + 2) := by
  have hrun : runLen (pre ++ (0xFF :: l).flatMap framed ++ junk) = pre.length + 2 := by
    rw [List.flatMap_cons, ← List.append_assoc, List.append_assoc]
    exact runLen_preamble hpre _
  have hframed : ((0xFF :: l).flatMap framed).length = 10 * (0xFF :: l).length := by
    simp [List.length_flatMap]; omega
  have hlength : (pre ++ (0xFF :: l).flatMap framed ++ junk).length =
      pre.length + 10 * (0xFF :: l).length + junk.length := by
    rw [List.length_append, List.length_append, hframed]
  have hcons : (0xFF :: l).length = l.length + 1 := rfl
  rcases syncFn_cases (pre ++ (0xFF :: l).flatMap framed ++ junk) with ⟨hshort, _⟩ | ⟨_, e⟩
  · omega
  · rw [hrun, Nat.add_sub_cancel, List.append_assoc, List.drop_left, ← List.append_assoc,
      deframe_framed _ _ _ (by rw [hlength]; omega)] at e
    exact ⟨_, e⟩

theorem finish_inputPacket (c : Code) (s : State) : (finish c s).inputPacket = s.inputPacket := rfl

theorem writeParse_inputPacket (r : ParseResult) (s : State) : (writeParse r s).inputPacket = s.inputPacket := by
  cases r <;> rfl

section
variable (s : State) (run : Nat) {l : Bytes} (h : l.length < 2 ^ 16)
include h

theorem toNat_ofNat_length : (BitVec.ofNat 16 l.length).toNat = l.length :=
  (BitVec.toNat_ofNat ..).trans (Nat.mod_eq_of_lt h)

/-- What SYNC has stored is EXTRACT's input (40_command_cycle.md R96). -/
theorem inputFrame_writeSync : (writeSync (.ok l run) s).inputFrame = l := by
  rw [State.inputFrame, writeSync, toNat_ofNat_length h]
  exact s.map_bufByte_store fbufBase l

/-- What EXTRACT has stored is MDECODE's input (40_command_cycle.md R96). -/
theorem inputSymbols_writeExtract : (writeExtract (.ok l) s).inputSymbols = l := by
  rw [State.inputSymbols, writeExtract, toNat_ofNat_length h]
  exact s.map_bufByte_store tbufBase l

/-- What MDECODE has stored is PARSE's input (40_command_cycle.md R96). -/
theorem inputPacket_writeMdecode : (writeMdecode (.ok l) s).inputPacket = l := by
  rw [State.inputPacket, writeMdecode, toNat_ofNat_length h]
  exact s.map_bufByte_store dbufBase l

end

end Sys2Proof.Machine
end

section
/-! The statement about DECODE of a well-formed frame (45_decode.md R150). -/

namespace Sys2Proof.Machine

/-- Settles O40: the preamble aligns the frame (`syncFn_framed`), no symbol is the stop byte (`extractFn_frame`), the symbols
decode to the packet's bytes (`mdecodeFn_symbols`), and those parse to its values (`PacketValues.parseFn_bytes`). -/
theorem wellFormedFrameDecodes : Obligations.WellFormedFrameDecodes := by
  intro s v pre junk hpending hfa hdistinct hstop hpayload hpre hinput
  have hnodup : s.params.mt.toList.Nodup := of_decide_eq_true hdistinct
  generalize hsymbols : (v.bytes s.params.hf).flatMap (symbolsOf s.params.mt) = symbols at hstop hinput
  obtain ⟨rest, hsync⟩ := syncFn_framed hpre ([0x00, 0x33, 0x55, 0x53] ++ symbols ++ [stopByte]) junk
  have hbits : pre ++ (0xFF :: ([0x00, 0x33, 0x55, 0x53] ++ symbols ++ [stopByte])).flatMap framed ++ junk = s.inputBits := by
    rw [hinput, frameBits_eq]
  rw [hbits] at hsync
  have hextract : extractFn (syncWord ++ symbols ++ [stopByte] ++ rest) = .ok symbols := extractFn_frame hstop rest
  have hmdecode : mdecodeFn s.params.mt symbols = .ok (v.bytes s.params.hf) := hsymbols ▸ mdecodeFn_symbols hnodup _
  have hcomplete := decodeFromBits_of_ok (s := clearPacket s) hsync hextract hmdecode
  rw [clearPacket_params, v.parseFn_bytes s.params hfa hpayload] at hcomplete
  have hpreRun : pre.length + 2 < 2 ^ 16 := by
    have hlength := congrArg List.length hbits
    have hinLen := s.inLen.isLt
    rw [State.inputBits_length, List.length_append, List.length_append, List.flatMap_cons, List.length_append,
      framed_length] at hlength
    omega
  have hbytes : (v.bytes s.params.hf).length < 2 ^ 16 := by
    have hsyncLength := syncFn_length hsync
    have hextractLength := extractFn_length hextract
    have hmdecodeLength := mdecodeFn_length hmdecode
    have hinLen := s.inLen.isLt
    rw [State.inputBits_length] at hsyncLength
    simp only [List.cons_append, syncWord, List.nil_append, List.append_assoc] at hextractLength hsyncLength
    omega
  refine ⟨_, (exec_complete (c := .decode) hpending).trans (congrArg _ hcomplete), rfl, rfl, rfl, ?pkt, ?preRun, ?bytes⟩
  case pkt => rw [writeParse, finish_pkt, v.fields_group]
  case preRun => exact (BitVec.toNat_ofNat ..).trans (Nat.mod_eq_of_lt hpreRun)
  case bytes =>
    rw [finish_inputPacket, writeParse_inputPacket]
    exact inputPacket_writeMdecode _ hbytes

end Sys2Proof.Machine
end

section
/-! SUPPORT. DECODE's completion in one form for all its outcomes: what the pipeline computes from the parameters and the input bits
alone, and the one update of the state that it makes of that (45_decode.md R146, R147, R149). -/

namespace Sys2Proof.Machine

/-- What DECODE's pipeline computes. A stage that was not reached has no output, and one that failed has the empty output, which
its length register shows as 0 (45_decode.md R147). -/
structure DecodeOutput where
  preRun : Half
  frame : Bytes
  symbols : Option Bytes
  packet : Option Bytes
  pkt : PacketGroup
  code : Code

/-- The packet-result group of the parser's result, from a cleared group (44_parse.md R142). -/
def ParseResult.group : ParseResult → PacketGroup
  | .errChecksum cs => { PacketGroup.zero with csum := cs, pcons := 0 }
  | .errMalformed cs pos => { PacketGroup.zero with csum := cs, pcons := BitVec.ofNat 16 pos }
  | .ok pk cs pos => pk.group cs pos

/-- The pipeline as a function of the parameters and the input bits. -/
def decodeOutput (p : Params) (bits : Bits) : DecodeOutput :=
  match syncFn bits with
  | .err run => ⟨BitVec.ofNat 16 run, [], none, none, .zero, .preambleError⟩
  | .ok f run =>
    match extractFn f with
    | .errSync => ⟨BitVec.ofNat 16 run, f, some [], none, .zero, .syncError⟩
    | .errEop => ⟨BitVec.ofNat 16 run, f, some [], none, .zero, .eopError⟩
    | .ok symbols =>
      match mdecodeFn p.mt symbols with
      | .err => ⟨BitVec.ofNat 16 run, f, some symbols, some [], .zero, .manchesterError⟩
      | .ok d => ⟨BitVec.ofNat 16 run, f, some symbols, some d, (parseFn p d).group, parseCode (parseFn p d)⟩

/-- A memory with the outputs of the three storing stages in their buffers. -/
def DecodeOutput.storeIn (o : DecodeOutput) (m : Memory) : Memory :=
  ((m.writeBytes fbufBase o.frame).writeBytes tbufBase (o.symbols.getD [])).writeBytes dbufBase (o.packet.getD [])

/-- The state with the pipeline's output written: the length of a stage that was not reached stays. -/
def DecodeOutput.writeTo (o : DecodeOutput) (s : State) : State :=
  { s with
    preRun := o.preRun
    flen := BitVec.ofNat 16 o.frame.length
    tlen := (o.symbols.map fun l => BitVec.ofNat 16 l.length).getD s.tlen
    dlen := (o.packet.map fun l => BitVec.ofNat 16 l.length).getD s.dlen
    mem := o.storeIn s.mem
    pkt := o.pkt
    code := o.code
    done := true
    pending := none }

/-- What the parser's result writes into a cleared group. -/
theorem writeParse_cleared (r : ParseResult) {s : State} (h : s.pkt = PacketGroup.zero) :
    writeParse r s = { s with pkt := r.group } := by
  cases r with
  | errChecksum cs => rw [writeParse, h]; rfl
  | errMalformed cs pos => rw [writeParse, h]; rfl
  | ok pk cs pos => rfl

/-- DECODE's completion writes what the pipeline computes (45_decode.md R146, R147). -/
theorem completeDecode_eq (s : State) : completeDecode s = (decodeOutput s.params s.inputBits).writeTo s := by
  have hempty : BitVec.ofNat 16 ([] : Bytes).length = 0 := rfl
  have hstages := decodeFromBits_cases s.inputBits (clearPacket s)
  rw [clearPacket_params] at hstages
  rw [completeDecode, DecodeOutput.writeTo, DecodeOutput.storeIn]
  rcases hstages with ⟨run, hsync, e⟩ | ⟨f, run, hsync, ⟨hextract, e⟩ | ⟨hextract, e⟩ |
    ⟨symbols, hextract, ⟨hmdecode, e⟩ | ⟨d, hmdecode, e⟩⟩⟩ <;> rw [e]
  · simp only [decodeOutput, hsync, finish, writeSync, clearPacket, Option.map_none, Option.getD_none, hempty,
      Memory.writeBytes_nil]
  · simp only [decodeOutput, hsync, hextract, finish, writeExtract, writeSync, State.store, clearPacket,
      Option.map_some, Option.map_none, Option.getD_some, Option.getD_none, hempty, Memory.writeBytes_nil]
  · simp only [decodeOutput, hsync, hextract, finish, writeExtract, writeSync, State.store, clearPacket,
      Option.map_some, Option.map_none, Option.getD_some, Option.getD_none, hempty, Memory.writeBytes_nil]
  · simp only [decodeOutput, hsync, hextract, hmdecode, finish, writeMdecode, writeExtract, writeSync, State.store,
      clearPacket, Option.map_some, Option.getD_some, hempty, Memory.writeBytes_nil]
  · rw [writeParse_cleared _ rfl]
    simp only [decodeOutput, hsync, hextract, hmdecode, finish, writeMdecode, writeExtract, writeSync, State.store,
      clearPacket, Option.map_some, Option.getD_some]

/-- No stage's output is longer than its input. -/
theorem decodeOutput_lengths (p : Params) (bits : Bits) :
    (decodeOutput p bits).frame.length ≤ bits.length / 10 ∧
      ((decodeOutput p bits).symbols.getD []).length ≤ (decodeOutput p bits).frame.length ∧
      ((decodeOutput p bits).packet.getD []).length ≤ (decodeOutput p bits).frame.length := by
  unfold decodeOutput
  rcases hsync : syncFn bits with run | ⟨f, run⟩
  · simp
  have hframe := syncFn_length hsync
  dsimp only
  rcases hextract : extractFn f with _ | _ | symbols
  · exact ⟨hframe, Nat.zero_le _, Nat.zero_le _⟩
  · exact ⟨hframe, Nat.zero_le _, Nat.zero_le _⟩
  have hsymbols := extractFn_length hextract
  dsimp only
  rcases hmdecode : mdecodeFn p.mt symbols with _ | d <;> dsimp only
  · exact ⟨hframe, by rw [Option.getD_some]; omega, Nat.zero_le _⟩
  · have hpacket := mdecodeFn_length hmdecode
    exact ⟨hframe, by rw [Option.getD_some]; omega, by rw [Option.getD_some]; omega⟩

/-- The code says which stages were reached: EXTRACT, unless the preamble failed, and MDECODE, unless EXTRACT failed too. -/
theorem decodeOutput_reached (p : Params) (bits : Bits) :
    ((decodeOutput p bits).code ≠ .preambleError → ∃ l, (decodeOutput p bits).symbols = some l) ∧
      ((decodeOutput p bits).code ≠ .preambleError → (decodeOutput p bits).code ≠ .syncError →
        (decodeOutput p bits).code ≠ .eopError → ∃ l, (decodeOutput p bits).packet = some l) := by
  unfold decodeOutput
  rcases syncFn bits with run | ⟨f, run⟩
  · exact ⟨fun h => absurd rfl h, fun h => absurd rfl h⟩
  dsimp only
  rcases extractFn f with _ | _ | symbols
  · exact ⟨fun _ => ⟨_, rfl⟩, fun _ h => absurd rfl h⟩
  · exact ⟨fun _ => ⟨_, rfl⟩, fun _ _ h => absurd rfl h⟩
  dsimp only
  rcases mdecodeFn p.mt symbols with _ | d
  · exact ⟨fun _ => ⟨_, rfl⟩, fun _ _ _ => ⟨_, rfl⟩⟩
  · exact ⟨fun _ => ⟨_, rfl⟩, fun _ _ _ => ⟨_, rfl⟩⟩

end Sys2Proof.Machine
end

section
/-! SUPPORT. The same byte sequences written to two memories, and written twice to one (20_memory.md R53). -/

namespace Sys2Proof.Machine

/-- Two memories list the same byte at an address. -/
def Memory.AgreeAt (m m' : Memory) (x : Nat) : Prop := ∃ b, m.read? x = some b ∧ m'.read? x = some b

/-- Where the same bytes are written, the memories agree. -/
theorem Memory.agreeAt_writeBytes_inside (m m' : Memory) (base : Nat) (bytes : Bytes) {j : Nat} (hj : j < bytes.length) :
    Memory.AgreeAt (m.writeBytes base bytes) (m'.writeBytes base bytes) (base + j) :=
  ⟨bytes[j], Memory.read?_writeBytes_inside _ _ _ hj, Memory.read?_writeBytes_inside _ _ _ hj⟩

/-- Writing the same bytes to both keeps an agreement, inside the range and outside it. -/
theorem Memory.AgreeAt.writeBytes {m m' : Memory} {x : Nat} (h : Memory.AgreeAt m m' x) (base : Nat) (bytes : Bytes) :
    Memory.AgreeAt (m.writeBytes base bytes) (m'.writeBytes base bytes) x := by
  by_cases hx : x < base ∨ base + bytes.length ≤ x
  · obtain ⟨b, hm, hm'⟩ := h
    exact ⟨b, by rw [Memory.read?_writeBytes_outside _ _ _ hx, hm], by rw [Memory.read?_writeBytes_outside _ _ _ hx, hm']⟩
  · obtain ⟨j, rfl⟩ := Nat.exists_eq_add_of_le (show base ≤ x by omega)
    exact Memory.agreeAt_writeBytes_inside m m' base bytes (by omega)

/-- Where the memories of two states agree, so do their buffer bytes, whatever their draws. -/
theorem Memory.AgreeAt.bufByte {s s' : State} {a : Nat} (h : Memory.AgreeAt s.mem s'.mem a) :
    s.bufByte a = s'.bufByte a := by
  obtain ⟨b, hm, hm'⟩ := h
  rw [State.bufByte_of_read? hm, State.bufByte_of_read? hm']

section
variable (o : DecodeOutput) (m m' : Memory) {j : Nat}

/-- The outputs of DECODE's stages are the same bytes in two memories, also where a later buffer's bytes reach into an earlier
one. -/
theorem DecodeOutput.agreeAt_frame (hj : j < o.frame.length) :
    Memory.AgreeAt (o.storeIn m) (o.storeIn m') (fbufBase + j) :=
  ((Memory.agreeAt_writeBytes_inside m m' fbufBase _ hj).writeBytes _ _).writeBytes _ _

theorem DecodeOutput.agreeAt_symbols (hj : j < (o.symbols.getD []).length) :
    Memory.AgreeAt (o.storeIn m) (o.storeIn m') (tbufBase + j) :=
  (Memory.agreeAt_writeBytes_inside _ _ tbufBase _ hj).writeBytes _ _

theorem DecodeOutput.agreeAt_packet (hj : j < (o.packet.getD []).length) :
    Memory.AgreeAt (o.storeIn m) (o.storeIn m') (dbufBase + j) :=
  Memory.agreeAt_writeBytes_inside _ _ dbufBase _ hj

/-- Outputs that fit their buffers, written again, change nothing. -/
theorem DecodeOutput.storeIn_storeIn (hframe : o.frame.length ≤ 1024) (hsymbols : (o.symbols.getD []).length ≤ 1024) :
    o.storeIn (o.storeIn m) = o.storeIn m := by
  have hframeThere (k : Nat) (hk : k < o.frame.length) : (o.storeIn m).read? (fbufBase + k) = some o.frame[k] := by
    rw [DecodeOutput.storeIn, Memory.read?_writeBytes_outside _ _ _ (.inl (by simp only [fbufBase, dbufBase]; omega)),
      Memory.read?_writeBytes_outside _ _ _ (.inl (by simp only [fbufBase, tbufBase]; omega)),
      Memory.read?_writeBytes_inside]
  have hsymbolsThere (k : Nat) (hk : k < (o.symbols.getD []).length) :
      (o.storeIn m).read? (tbufBase + k) = some (o.symbols.getD [])[k] := by
    rw [DecodeOutput.storeIn, Memory.read?_writeBytes_outside _ _ _ (.inl (by simp only [tbufBase, dbufBase]; omega)),
      Memory.read?_writeBytes_inside]
  have hpacketThere (k : Nat) (hk : k < (o.packet.getD []).length) :
      (o.storeIn m).read? (dbufBase + k) = some (o.packet.getD [])[k] := by
    rw [DecodeOutput.storeIn, Memory.read?_writeBytes_inside]
  conv_lhs => rw [DecodeOutput.storeIn]
  rw [Memory.writeBytes_of_read? _ _ _ hframeThere, Memory.writeBytes_of_read? _ _ _ hsymbolsThere,
    Memory.writeBytes_of_read? _ _ _ hpacketThere]

/-- Outputs that fit their buffers leave every location from 0x2000 on alone. -/
theorem DecodeOutput.read?_storeIn_above (hframe : o.frame.length ≤ 1024) (hsymbols : (o.symbols.getD []).length ≤ 1024)
    (hpacket : (o.packet.getD []).length ≤ 1024) {a : Nat} (ha : 0x2000 ≤ a) : (o.storeIn m).read? a = m.read? a := by
  rw [DecodeOutput.storeIn, Memory.read?_writeBytes_outside _ _ _ (.inr (by simp only [dbufBase]; omega)),
    Memory.read?_writeBytes_outside _ _ _ (.inr (by simp only [tbufBase]; omega)),
    Memory.read?_writeBytes_outside _ _ _ (.inr (by simp only [fbufBase]; omega))]

end

/-- An output written again to the state it has made of one, with the command pending once more, makes the same state. -/
theorem DecodeOutput.writeTo_writeTo (o : DecodeOutput) (s : State) (c : Cmd) (hframe : o.frame.length ≤ 1024)
    (hsymbols : (o.symbols.getD []).length ≤ 1024) :
    o.writeTo { o.writeTo s with pending := some c, done := false } = o.writeTo s := by
  have hkept {α : Type} (x : Option α) (y : α) : x.getD (x.getD y) = x.getD y := by cases x <;> rfl
  simp only [DecodeOutput.writeTo, o.storeIn_storeIn s.mem hframe hsymbols, hkept]

/-- The input bits depend on IN_LEN and the bits it counts only. -/
theorem inputBits_congr {s s' : State} (hlen : s.inLen = s'.inLen)
    (hbits : ∀ i, i < s.inLen.toNat → s.ibufBit i = s'.ibufBit i) : s.inputBits = s'.inputBits := by
  rw [State.inputBits, State.inputBits, ← hlen]
  exact List.map_congr_left fun i hi => hbits i (List.mem_range.1 hi)

/-- What keeps the bytes below FBUF keeps the input bits, where they lie in IBUF. -/
theorem Keeps.inputBits {s t : State} (h : Keeps s t) (hlen : s.inLen.toNat ≤ 8192) : t.inputBits = s.inputBits := by
  refine inputBits_congr h.inLen fun i hi => ?_
  rw [h.inLen] at hi
  rw [State.ibufBit, State.ibufBit, h.ibuf _ (by simp only [ibufBase]; omega)]

end Sys2Proof.Machine
end

section
/-! The statements about DECODE's result as a function of its input (10_state.md R50, 45_decode.md R149). -/

namespace Sys2Proof.Machine

/-- Settles O37: both runs write one output (`completeDecode_eq`), which the parameters and the input bits determine, and bytes
written to both memories are the same in both. -/
theorem decodeDependsOnItsInputOnly : Obligations.DecodeDependsOnItsInputOnly := by
  intro s s' t t' hs hs' hparams hlen hbits ht ht'
  obtain rfl : completeDecode s = t := complete_eq_of_exec (c := .decode) hs ht
  obtain rfl : completeDecode s' = t' := complete_eq_of_exec (c := .decode) hs' ht'
  rw [completeDecode_eq s, completeDecode_eq s', ← hparams, ← inputBits_congr hlen hbits]
  obtain ⟨hextract, hmdecode⟩ := decodeOutput_reached s.params s.inputBits
  generalize decodeOutput s.params s.inputBits = o at *
  have hcount {l : Bytes} {j : Nat} (hj : j < (BitVec.ofNat 16 l.length).toNat) : j < l.length :=
    hj.trans_le (by rw [BitVec.toNat_ofNat]; exact Nat.mod_le _ _)
  refine ⟨rfl, rfl, rfl, rfl, fun j hj => (o.agreeAt_frame s.mem s'.mem (hcount hj)).bufByte, fun h => ?symbols,
    fun h1 h2 h3 => ?packet⟩
  case symbols =>
    obtain ⟨l, hl⟩ := hextract h
    simp only [DecodeOutput.writeTo, hl, Option.map_some, Option.getD_some]
    exact ⟨trivial, fun j hj => (o.agreeAt_symbols s.mem s'.mem (by rw [hl]; exact hcount hj)).bufByte⟩
  case packet =>
    obtain ⟨l, hl⟩ := hmdecode h1 h2 h3
    simp only [DecodeOutput.writeTo, hl, Option.map_some, Option.getD_some]
    exact ⟨trivial, fun j hj => (o.agreeAt_packet s.mem s'.mem (by rw [hl]; exact hcount hj)).bufByte⟩

/-- Settles O38: the second run has the same input, since DECODE keeps IBUF (`Keeps.inputBits`), so it writes the same output
(`completeDecode_eq`), which the state holds already (`DecodeOutput.writeTo_writeTo`). -/
theorem decodeTwiceGivesTheSameState : Obligations.DecodeTwiceGivesTheSameState := by
  intro s t hpending hlen hexec
  obtain rfl : completeDecode s = t := complete_eq_of_exec (c := .decode) hpending hexec
  obtain ⟨hkeeps, _⟩ := complete_keeps .decode s
  have hinput : ({ completeDecode s with pending := some .decode, done := false } : State).inputBits = s.inputBits :=
    hkeeps.inputBits hlen
  have hparams : (completeDecode s).params = s.params := hkeeps.params
  obtain ⟨hframe, hsymbols, _⟩ := decodeOutput_lengths s.params s.inputBits
  rw [State.inputBits_length] at hframe
  refine (exec_complete (c := .decode) rfl).trans (congrArg _ ?_)
  rw [complete, completeDecode_eq, hinput, hparams, completeDecode_eq s]
  exact DecodeOutput.writeTo_writeTo _ s .decode (by omega) (by omega)

end Sys2Proof.Machine
end

section
/-! SUPPORT. The completion of a command does not look at CODE, DONE or PENDING; what each completion leaves alone in the buffers;
and each stage issued where the one before has ended OK (40_command_cycle.md R96, R97, R100). -/

namespace Sys2Proof.Machine

section
variable (k : Code) (s : State) (x : Code) (y : Bool) (z : Option Cmd)

/-- The write of a stage's result and `finish` after it read nothing of the status (40_command_cycle.md R97). -/
theorem finish_writeSync_withStatus (r : SyncResult) :
    finish k (writeSync r { s with code := x, done := y, pending := z }) = finish k (writeSync r s) := by
  cases r <;> rfl

theorem finish_writeExtract_withStatus (r : ExtractResult) :
    finish k (writeExtract r { s with code := x, done := y, pending := z }) = finish k (writeExtract r s) := by
  cases r <;> rfl

theorem finish_writeMdecode_withStatus (r : MdecodeResult) :
    finish k (writeMdecode r { s with code := x, done := y, pending := z }) = finish k (writeMdecode r s) := by
  cases r <;> rfl

theorem finish_writeParse_withStatus (r : ParseResult) :
    finish k (writeParse r (clearPacket { s with code := x, done := y, pending := z })) =
      finish k (writeParse r (clearPacket s)) := by
  cases r <;> rfl

/-- A completion sets CODE, DONE and PENDING and reads none of them (40_command_cycle.md R97). -/
theorem complete_withStatus (c : Cmd) :
    complete c { s with code := x, done := y, pending := z } = complete c s := by
  cases c with
  | decode => exact (completeDecode_eq _).trans (completeDecode_eq s).symm
  | sync => exact finish_writeSync_withStatus (syncCode (syncFn s.inputBits)) s x y z (syncFn s.inputBits)
  | extract => exact finish_writeExtract_withStatus (extractCode (extractFn s.inputFrame)) s x y z (extractFn s.inputFrame)
  | mdecode =>
    exact finish_writeMdecode_withStatus (mdecodeCode (mdecodeFn s.params.mt s.inputSymbols)) s x y z
      (mdecodeFn s.params.mt s.inputSymbols)
  | parse =>
    exact finish_writeParse_withStatus (parseCode (parseFn s.params s.inputPacket)) s x y z
      (parseFn s.params s.inputPacket)

end

theorem complete_finish (c : Cmd) (x : Code) (s : State) : complete c (finish x s) = complete c s :=
  complete_withStatus s x true none c

/-- A command issued from an idle state within its capacity, and then completed. -/
theorem issueAndComplete_eq {c : Cmd} {s : State} (hp : s.pending = none) (hfits : inputLength c s ≤ capacity c s.params) :
    issueAndComplete c s = complete c s := by
  have hissue : issue c s = accept c s := if_neg (by omega)
  have hstatus : complete c (accept c s) = complete c s := complete_withStatus s s.code false (some c) c
  simp only [issueAndComplete, exec_issue hp, hissue, State.busy_some (accept_pending c s), if_true,
    exec_complete (accept_pending c s), hstatus]

/-- A command either changes CODE, DONE and PENDING at most, or it is pending and completes. -/
theorem resultOf_cases (c : Cmd) (s : State) :
    (∃ x y z, resultOf c.instr s = { s with code := x, done := y, pending := z }) ∨
      (s.pending = some c ∧ resultOf c.instr s = complete c s) := by
  rw [resultOf_pending]
  rcases runPending_cases c (complete c) s with ⟨_, _, h⟩ | ⟨_, _, h⟩ | ⟨hp, h⟩ | ⟨_, _, _, h⟩
  · exact .inl ⟨_, _, _, h⟩
  · exact .inl ⟨_, _, _, h⟩
  · exact .inr ⟨hp, h⟩
  · exact .inl ⟨_, _, _, h⟩

theorem resultOf_nop (s : State) : resultOf .nop s = s :=
  resultOf_eq_of_exec (exec_nop s)

/-- CLEAR changes the status, PRE_RUN and the packet-result group at most (46_control.md R152). -/
theorem resultOf_clear_frame (s : State) :
    ∃ x y p k, resultOf .clear s = { s with code := x, done := y, preRun := p, pkt := k } := by
  rcases runImmediate_cases clearAll s with ⟨_, h⟩ | ⟨_, _, h⟩ <;> exact ⟨_, _, _, _, h⟩

/-! ## The buffers -/

section
variable (s : State) {a : Nat}

theorem bufByte_writeSync {bits : Bits} (h : a < 0x1400 ∨ 0x1400 + bits.length / 10 ≤ a) :
    (writeSync (syncFn bits) s).bufByte a = s.bufByte a := by
  rcases hsync : syncFn bits with run | ⟨f, run⟩
  · rfl
  · have hlength := syncFn_length hsync
    exact s.bufByte_store_outside fbufBase f (by simp only [fbufBase]; omega)

theorem bufByte_writeExtract {f : Bytes} (h : a < 0x1800 ∨ 0x1800 + f.length ≤ a) :
    (writeExtract (extractFn f) s).bufByte a = s.bufByte a := by
  rcases hextract : extractFn f with _ | _ | out
  · rfl
  · rfl
  · have hlength := extractFn_length hextract
    exact s.bufByte_store_outside tbufBase out (by simp only [tbufBase]; omega)

theorem bufByte_writeMdecode {mt : Vector Byte 16} {t : Bytes} (h : a < 0x1C00 ∨ 0x1C00 + t.length ≤ a) :
    (writeMdecode (mdecodeFn mt t) s).bufByte a = s.bufByte a := by
  rcases hmdecode : mdecodeFn mt t with _ | out
  · rfl
  · have hlength := mdecodeFn_length hmdecode
    exact s.bufByte_store_outside dbufBase out (by simp only [dbufBase]; omega)

/-- SYNC writes in FBUF only, in as many bytes as a tenth of its input bits. -/
theorem bufByte_completeSync (h : a < 0x1400 ∨ 0x1400 + s.inLen.toNat / 10 ≤ a) :
    (completeSync s).bufByte a = s.bufByte a := by
  rw [← s.inputBits_length] at h
  exact bufByte_writeSync s h

/-- EXTRACT writes from TBUF on, at most as many bytes as its input has. -/
theorem bufByte_completeExtract (h : a < 0x1800 ∨ 0x1800 + s.flen.toNat ≤ a) :
    (completeExtract s).bufByte a = s.bufByte a := by
  rw [← s.inputFrame_length] at h
  exact bufByte_writeExtract s h

/-- MDECODE writes from DBUF on, at most as many bytes as its input has. -/
theorem bufByte_completeMdecode (h : a < 0x1C00 ∨ 0x1C00 + s.tlen.toNat ≤ a) :
    (completeMdecode s).bufByte a = s.bufByte a := by
  rw [← s.inputSymbols_length] at h
  exact bufByte_writeMdecode s h

/-- PARSE writes the packet-result group and the status only. -/
theorem completeParse_frame : completeParse s = { s with
    pkt := (completeParse s).pkt, code := (completeParse s).code, done := true, pending := none } := by
  rw [completeParse, writeParse_cleared _ rfl]
  rfl

/-- What SYNC's completion changes at most (41_sync.md R115). -/
theorem completeSync_frame : completeSync s = { s with
    preRun := (completeSync s).preRun, flen := (completeSync s).flen, mem := (completeSync s).mem,
    code := (completeSync s).code, done := true, pending := none } := by
  simp only [completeSync, finish]
  rw [writeSync_frame]

/-- The completion of a command in a good state writes nothing from 0x2000 on: it has passed the length check. -/
theorem bufByte_complete_above {s : State} {c : Cmd} (hgood : s.Good) (hp : s.pending = some c) (ha : 0x2000 ≤ a) :
    (complete c s).bufByte a = s.bufByte a := by
  have hfits := hgood.pending_fits c hp
  have hmax := maxBits_le hgood.capacity_ok
  cases c with
  | decode =>
    have hinLen : s.inLen.toNat ≤ 8192 := hfits.trans hmax
    obtain ⟨hframe, hsymbols, hpacket⟩ := decodeOutput_lengths s.params s.inputBits
    rw [s.inputBits_length] at hframe
    rw [complete, completeDecode_eq]
    refine congrArg (Option.getD · _) ?_
    exact DecodeOutput.read?_storeIn_above _ _ (by omega) (by omega) (by omega) ha
  | sync =>
    have hinLen : s.inLen.toNat ≤ 8192 := hfits.trans hmax
    exact bufByte_completeSync s (by omega)
  | extract =>
    have hflen : s.flen.toNat ≤ 1024 := hfits
    exact bufByte_completeExtract s (by omega)
  | mdecode =>
    have htlen : s.tlen.toNat ≤ 1024 := hfits
    exact bufByte_completeMdecode s (by omega)
  | parse => rw [complete, completeParse_frame]; rfl

end

/-! ## A stage issued where the one before has ended OK -/

section
variable (s : State) (run : Nat) {l : Bytes} (h : l.length ≤ 1024)
include h

/-- EXTRACT issued where SYNC has ended OK (45_decode.md R148). -/
theorem extract_after_sync :
    issueAndComplete .extract (finish .ok (writeSync (.ok l run) s)) =
      finish (extractCode (extractFn l)) (writeExtract (extractFn l) (writeSync (.ok l run) s)) := by
  have hfits : inputLength .extract (finish .ok (writeSync (.ok l run) s)) ≤ 1024 :=
    (toNat_ofNat_length (by omega)).trans_le h
  rw [issueAndComplete_eq rfl hfits, complete_finish, complete, completeExtract, inputFrame_writeSync s run (by omega)]

/-- MDECODE issued where EXTRACT has ended OK (45_decode.md R148). -/
theorem mdecode_after_extract :
    issueAndComplete .mdecode (finish .ok (writeExtract (.ok l) s)) =
      finish (mdecodeCode (mdecodeFn s.params.mt l)) (writeMdecode (mdecodeFn s.params.mt l) (writeExtract (.ok l) s)) := by
  have hfits : inputLength .mdecode (finish .ok (writeExtract (.ok l) s)) ≤ 1024 := (toNat_ofNat_length (by omega)).trans_le h
  rw [issueAndComplete_eq rfl hfits, complete_finish, complete, completeMdecode, inputSymbols_writeExtract s (by omega)]
  rfl

/-- PARSE issued where MDECODE has ended OK (45_decode.md R148). -/
theorem parse_after_mdecode :
    issueAndComplete .parse (finish .ok (writeMdecode (.ok l) s)) =
      finish (parseCode (parseFn s.params l))
        (writeParse (parseFn s.params l) (clearPacket (writeMdecode (.ok l) s))) := by
  have hfits : inputLength .parse (finish .ok (writeMdecode (.ok l) s)) ≤ 1024 := (toNat_ofNat_length (by omega)).trans_le h
  rw [issueAndComplete_eq rfl hfits, complete_finish, complete, completeParse, inputPacket_writeMdecode s (by omega)]
  rfl

end

/-- The first three stages keep the packet-result group, so it may as well be cleared before them or after. -/
theorem writeSync_clearPacket (r : SyncResult) (s : State) : writeSync r (clearPacket s) = clearPacket (writeSync r s) := by
  cases r <;> rfl

theorem writeExtract_clearPacket (r : ExtractResult) (s : State) :
    writeExtract r (clearPacket s) = clearPacket (writeExtract r s) := by
  cases r <;> rfl

theorem writeMdecode_clearPacket (r : MdecodeResult) (s : State) :
    writeMdecode r (clearPacket s) = clearPacket (writeMdecode r s) := by
  cases r <;> rfl

end Sys2Proof.Machine
end

section
/-! SUPPORT. DECODE against its stages in a row, stage by stage from the last to the first: where the row goes on DECODE does, and
where the row stops DECODE has stopped (45_decode.md R147, R148). -/

namespace Sys2Proof.Machine

/-- DECODE has ended in `t` as the row has in `s4`, `s3` being the state before PARSE, but for a packet-result group that the row has
left as `k` and DECODE has cleared. -/
structure RowAgrees (t s3 s4 : State) (k : PacketGroup) : Prop where
  state : t = { s4 with pkt := if s3.code = .ok then s4.pkt else PacketGroup.zero }
  pkt_kept : s3.code ≠ .ok → s4.pkt = k

/-- The row stops before PARSE, and DECODE has ended there with the group cleared. -/
theorem RowAgrees.of_stopped {t s3 s4 : State} {k : PacketGroup} (hcode : s3.code ≠ .ok)
    (h4 : s4 = if s3.code = .ok then issueAndComplete .parse s3 else s3) (ht : t = clearPacket s3) (hpkt : s3.pkt = k) :
    RowAgrees t s3 s4 k := by
  rw [if_neg hcode] at h4
  subst h4
  exact ⟨by rw [if_neg hcode]; exact ht, fun _ => hpkt⟩

section
variable {u s1 s2 s3 s4 : State} {l : Bytes}

/-- From MDECODE on: it fails, or its output goes to PARSE. -/
theorem rowAgrees_of_symbols (hl : l.length ≤ 1024) (h3 : s3 = issueAndComplete .mdecode (finish .ok (writeExtract (.ok l) u)))
    (h4 : s4 = if s3.code = .ok then issueAndComplete .parse s3 else s3) :
    RowAgrees (decodeFromSymbols l (clearPacket (writeExtract (.ok l) u))) s3 s4 u.pkt := by
  rw [mdecode_after_extract u hl] at h3
  have hparams : (clearPacket (writeExtract (.ok l) u)).params = u.params := rfl
  rcases hmdecode : mdecodeFn u.params.mt l with _ | d
  · rw [hmdecode] at h3
    refine .of_stopped (by rw [h3]; nofun) h4 ?_ (by rw [h3]; rfl)
    rw [decodeFromSymbols, hparams, hmdecode, h3]
    exact congrArg (finish .manchesterError) (writeMdecode_clearPacket _ _)
  · have hd : d.length ≤ 1024 := by have := mdecodeFn_length hmdecode; omega
    rw [hmdecode] at h3
    have hok : s3.code = .ok := by rw [h3]; rfl
    rw [if_pos hok, h3, mdecodeCode, parse_after_mdecode _ hd] at h4
    refine ⟨?_, fun h => absurd hok h⟩
    rw [if_pos hok, decodeFromSymbols, hparams, hmdecode, h4]
    dsimp only [decodeFromPacket]
    rw [writeMdecode_clearPacket]
    rfl

/-- From EXTRACT on: it fails, or its output goes to MDECODE. -/
theorem rowAgrees_of_frame {run : Nat} (hl : l.length ≤ 1024)
    (h2 : s2 = issueAndComplete .extract (finish .ok (writeSync (.ok l run) u)))
    (h3 : s3 = if s2.code = .ok then issueAndComplete .mdecode s2 else s2)
    (h4 : s4 = if s3.code = .ok then issueAndComplete .parse s3 else s3) :
    RowAgrees (decodeFromFrame l (clearPacket (writeSync (.ok l run) u))) s3 s4 u.pkt := by
  rw [extract_after_sync u run hl] at h2
  have hstopped (hcode : s2.code ≠ .ok) (ht : decodeFromFrame l (clearPacket (writeSync (.ok l run) u)) = clearPacket s2) :
      RowAgrees (decodeFromFrame l (clearPacket (writeSync (.ok l run) u))) s3 s4 u.pkt := by
    obtain rfl : s3 = s2 := h3.trans (if_neg hcode)
    refine .of_stopped hcode h4 ht ?_
    rw [h2, finish_pkt, writeExtract_pkt, writeSync_pkt]
  rcases hextract : extractFn l with _ | _ | symbols
  · refine hstopped (by rw [h2, hextract]; nofun) ?_
    rw [decodeFromFrame, h2, hextract]
    exact congrArg (finish .syncError) (writeExtract_clearPacket _ _)
  · refine hstopped (by rw [h2, hextract]; nofun) ?_
    rw [decodeFromFrame, h2, hextract]
    exact congrArg (finish .eopError) (writeExtract_clearPacket _ _)
  · have hsymbols : symbols.length ≤ 1024 := by have := extractFn_length hextract; omega
    rw [hextract] at h2
    have hok : s2.code = .ok := by rw [h2]; rfl
    rw [if_pos hok, h2, extractCode] at h3
    rw [decodeFromFrame, hextract]
    dsimp only
    rw [writeExtract_clearPacket]
    exact rowAgrees_of_symbols hsymbols h3 h4

/-- From SYNC on: it fails, or its output goes to EXTRACT. -/
theorem rowAgrees_of_sync (hinLen : u.inLen.toNat ≤ 8192) (h1 : s1 = completeSync u)
    (h2 : s2 = if s1.code = .ok then issueAndComplete .extract s1 else s1)
    (h3 : s3 = if s2.code = .ok then issueAndComplete .mdecode s2 else s2)
    (h4 : s4 = if s3.code = .ok then issueAndComplete .parse s3 else s3) :
    RowAgrees (completeDecode u) s3 s4 u.pkt := by
  rw [completeDecode, decodeFromBits]
  rw [completeSync] at h1
  rcases hsync : syncFn u.inputBits with run | ⟨f, run⟩
  · rw [hsync] at h1
    have hcode : s1.code ≠ .ok := by rw [h1]; nofun
    obtain rfl : s2 = s1 := h2.trans (if_neg hcode)
    obtain rfl : s3 = s2 := h3.trans (if_neg hcode)
    refine .of_stopped hcode h4 ?_ (by rw [h1]; rfl)
    rw [h1]
    exact congrArg (finish .preambleError) (writeSync_clearPacket _ _)
  · have hf : f.length ≤ 1024 := by
      have := syncFn_length hsync
      rw [State.inputBits_length] at this
      omega
    rw [hsync] at h1
    have hok : s1.code = .ok := by rw [h1]; rfl
    rw [if_pos hok, h1, syncCode] at h2
    dsimp only
    rw [writeSync_clearPacket]
    exact rowAgrees_of_frame hf h2 h3 h4

end

end Sys2Proof.Machine
end

section
/-! The statements about what commands leave unchanged and how they end, and about DECODE as its stages in a row
(40_command_cycle.md R96, R97, R104, 45_decode.md R148). -/

namespace Sys2Proof.Machine

/-- Settles O42: every completion ends with `finish` and a code of 0 to 6 and keeps IRQ_EN (`complete_keeps`), so irq, which is
DONE and IRQ_EN, is IRQ_EN. -/
theorem engineStepFinishesEveryCommand : Obligations.EngineStepFinishesEveryCommand := by
  intro s c hpending
  obtain ⟨hkeeps, hnone, hdone, hcode⟩ := complete_keeps c s
  refine ⟨complete c s, exec_complete hpending, hdone, hnone, ?_, hcode⟩
  rw [State.irq, hdone, hkeeps.irqEn, Bool.true_and]

/-- Settles O43: every command keeps what no command writes (`resultOf_keeps`), and for the rest it changes the status only, or
completes (`resultOf_cases`) and then changes what its stage writes. -/
theorem commandsKeepTheirInputs : Obligations.CommandsKeepTheirInputs := by
  intro i s t hexec
  obtain rfl : resultOf i s = t := resultOf_eq_of_exec hexec
  have hkeeps := resultOf_keeps i s
  refine ⟨hkeeps.irqEn, hkeeps.inLen, hkeeps.params, hkeeps.epoch, hkeeps.order, hkeeps.reads, hkeeps.ibuf,
    ?sync, ?extract, ?mdecode, ?parse, ?lengths, fun hgood => ⟨?syncAbove, ?extractAbove, ?above⟩⟩
  case sync =>
    rintro rfl
    rcases resultOf_cases .sync s with ⟨x, y, z, h⟩ | ⟨_, h⟩ <;> rw [Cmd.instr] at h <;> rw [h]
    · exact ⟨rfl, rfl, rfl⟩
    · rw [complete, completeSync_frame]
      exact ⟨rfl, rfl, rfl⟩
  case extract =>
    rintro rfl
    rcases resultOf_cases .extract s with ⟨x, y, z, h⟩ | ⟨_, h⟩ <;> rw [Cmd.instr] at h <;> rw [h]
    · exact ⟨rfl, rfl, rfl, rfl, fun _ _ => rfl⟩
    · refine ⟨?_, ?_, ?_, ?_, fun a ha => bufByte_completeExtract s (.inl ha)⟩ <;> rw [complete, completeExtract_frame]
  case mdecode =>
    rintro rfl
    rcases resultOf_cases .mdecode s with ⟨x, y, z, h⟩ | ⟨_, h⟩ <;> rw [Cmd.instr] at h <;> rw [h]
    · exact ⟨rfl, rfl, rfl, rfl, fun _ _ => rfl⟩
    · refine ⟨?_, ?_, ?_, ?_, fun a ha => bufByte_completeMdecode s (.inl ha)⟩ <;> rw [complete, completeMdecode_frame]
  case parse =>
    rintro rfl
    rcases resultOf_cases .parse s with ⟨x, y, z, h⟩ | ⟨_, h⟩ <;> rw [Cmd.instr] at h <;> rw [h]
    rw [complete, completeParse_frame]
  case lengths =>
    rintro (rfl | rfl | rfl)
    · rcases resultOf_cases .parse s with ⟨x, y, z, h⟩ | ⟨_, h⟩ <;> rw [Cmd.instr] at h <;> rw [h]
      · exact ⟨rfl, rfl, rfl, rfl⟩
      · rw [complete, completeParse_frame]
        exact ⟨rfl, rfl, rfl, rfl⟩
    · obtain ⟨x, y, p, k, h⟩ := resultOf_clear_frame s
      rw [h]
      exact ⟨rfl, rfl, rfl, rfl⟩
    · rw [resultOf_nop]
      exact ⟨rfl, rfl, rfl, rfl⟩
  case syncAbove =>
    rintro rfl a ha
    rcases resultOf_cases .sync s with ⟨x, y, z, h⟩ | ⟨hp, h⟩ <;> rw [Cmd.instr] at h <;> rw [h]
    · rfl
    · have hfits : s.inLen.toNat ≤ s.params.maxBits := hgood.pending_fits .sync hp
      have hmax := maxBits_le hgood.capacity_ok
      exact bufByte_completeSync s (by omega)
  case extractAbove =>
    rintro rfl a ha
    rcases resultOf_cases .extract s with ⟨x, y, z, h⟩ | ⟨hp, h⟩ <;> rw [Cmd.instr] at h <;> rw [h]
    · rfl
    · have hfits : s.flen.toNat ≤ 1024 := hgood.pending_fits .extract hp
      exact bufByte_completeExtract s (by omega)
  case above =>
    intro a ha
    have hcommand (c : Cmd) : (resultOf c.instr s).bufByte a = s.bufByte a := by
      rcases resultOf_cases c s with ⟨x, y, z, h⟩ | ⟨hp, h⟩ <;> rw [h]
      · rfl
      · exact bufByte_complete_above hgood hp ha
    cases i with
    | decode => exact hcommand .decode
    | sync => exact hcommand .sync
    | extract => exact hcommand .extract
    | mdecode => exact hcommand .mdecode
    | parse => exact hcommand .parse
    | nop => rw [resultOf_nop]
    | clear =>
      obtain ⟨x, y, p, k, h⟩ := resultOf_clear_frame s
      rw [h]
      rfl

/-- Settles O36: DECODE and its stages in a row go on together from stage to stage and stop together (`rowAgrees_of_sync`), each
command issued from an idle state within its capacity being its completion (`issueAndComplete_eq`). -/
theorem decodeEqualsTheStagesInARow : Obligations.DecodeEqualsTheStagesInARow := by
  intro s s1 s2 s3 s4 t hcapacity hidle hinLen h1 h2 h3 h4 ht
  rw [issueAndComplete_eq (c := .sync) hidle hinLen] at h1
  rw [issueAndComplete_eq (c := .decode) hidle hinLen] at ht
  obtain ⟨hstate, hpkt⟩ := rowAgrees_of_sync (hinLen.trans (maxBits_le hcapacity)) h1 h2 h3 h4
  exact ⟨ht.trans hstate, hpkt⟩

end Sys2Proof.Machine
end

section
/-! SUPPORT. What each part of the block address space reads, and what a write to it leaves (20_memory.md R51 to R63); what the host
keeps of its reads (30_encoding.md R94); and RAW_MSG (10_state.md R47). -/

namespace Sys2Proof.Machine

/-! ## Writes that store nothing -/

/-- A write to a register offset from 0x000C on is ignored: nothing there can be written (20_memory.md R54, R59). -/
theorem writeRegister_readOnly (s : State) {offset : Nat} (v : Byte) (h : 0x0C ≤ offset) : s.writeRegister offset v = s := by
  unfold State.writeRegister
  split
  case h_11 => rfl
  all_goals omega

/-- A write outside the registers and the buffers is ignored (20_memory.md R54, R59). -/
theorem busStore_outside (s : State) {a : Addr} (v : Byte) (h : 0x28 ≤ a.toNat)
    (hbuffer : ¬isBufferAddress s.params a.toNat = true) : s.busStore a v = s := by
  unfold State.busStore
  dsimp only
  rw [if_neg (by omega), if_neg hbuffer]

/-- A write that stores nothing is a step that only takes its event, whether a command is pending or not. -/
theorem step_write_ignored {s : State} {a : Addr} {v : Byte} {es : List Event} (ho : s.order = .write a v :: es)
    (ha : a ≠ 0) (h : ({ s with order := es } : State).busStore a v = { s with order := es }) :
    step s = .next { s with order := es } := by
  by_cases hp : s.pending = none
  · rw [step_write ho hp ha, h]
  · exact busyWritesAreIgnored s a v es ho hp

/-! ## Reads outside the registers -/

/-- A read outside the registers, PAYLOAD and the buffers gives 0 (20_memory.md R59). -/
theorem busRead_outside (s : State) {a : Addr} (h : 0x28 ≤ a.toNat) (hpayload : a.toNat < 0x100 ∨ 0x1FE < a.toNat)
    (hbuffer : ¬isBufferAddress s.params a.toNat = true) : s.busRead a = 0 := by
  unfold State.busRead
  dsimp only
  rw [if_neg (by omega), if_neg (by omega), if_neg hbuffer]

/-- A read of PAYLOAD gives the payload byte (10_state.md R42). -/
theorem busRead_payload (s : State) {a : Addr} (h : 0x100 ≤ a.toNat ∧ a.toNat ≤ 0x1FE) :
    s.busRead a = s.pkt.payloadByte (a.toNat - 0x100) := by
  unfold State.busRead
  dsimp only
  rw [if_neg (by omega), if_pos h]

/-- The command's status shows in STATUS only: every other address reads the same (20_memory.md R64). -/
theorem busRead_withStatus (s : State) (x : Code) (y : Bool) (z : Option Cmd) {a : Addr} (h : a ≠ 0x0002) :
    ({ s with code := x, done := y, pending := z } : State).busRead a = s.busRead a := by
  have hne : a.toNat ≠ 2 := fun heq => h (BitVec.eq_of_toNat_eq heq)
  have hregister (offset : Nat) (hoffset : offset ≠ 2) :
      ({ s with code := x, done := y, pending := z } : State).readRegister offset = s.readRegister offset := by
    unfold State.readRegister
    split
    case h_2 => exact absurd rfl hoffset
    all_goals rfl
  unfold State.busRead
  dsimp only
  rw [hregister _ hne]
  rfl

/-- A store of one byte is read at its own address only (20_memory.md R61, R65). -/
theorem busRead_store_other (s : State) {a b : Addr} (v : Byte) (h : b ≠ a) :
    (s.store a.toNat [v]).busRead b = s.busRead b := by
  have hne : b.toNat ≠ a.toNat := fun heq => h (BitVec.eq_of_toNat_eq heq)
  have hbyte : (s.store a.toNat [v]).bufByte b.toNat = s.bufByte b.toNat :=
    s.bufByte_store_outside _ _ (by rw [List.length_singleton]; omega)
  unfold State.busRead
  dsimp only
  rw [hbyte]
  rfl

/-! ## The cleared packet-result group -/

@[simp] theorem PacketGroup.payloadByte_zero (i : Nat) : PacketGroup.zero.payloadByte i = 0 := by
  rw [PacketGroup.payloadByte, PacketGroup.zero, Vector.toList_replicate, List.getD_eq_getElem?_getD,
    List.getElem?_replicate]
  split <;> rfl

/-- After a reset every register reads 0 (70_reset_and_hazards.md R175). -/
theorem readRegister_reset (offset : Nat) : State.reset.readRegister offset = 0 := by
  unfold State.readRegister
  split <;> decide

/-- PRESENT bit by bit (10_state.md R35). -/
theorem PacketGroup.getLsbD_present (k : PacketGroup) (i : Nat) : k.present.getLsbD i =
    (k.pktValid && ((i == 0 && k.flags.getLsbD 0) || (i == 1 && k.flags.getLsbD 1) || (i == 2 && k.flags.getLsbD 2) ||
      (i == 3 && k.header.getLsbD 1) || (i == 4 && k.header.getLsbD 0) || i == 7)) := by
  simp only [PacketGroup.present, BitVec.getLsbD_or, getLsbD_bitByte]
  rw [getLsbD_bitByte_shiftLeft _ (by omega), getLsbD_bitByte_shiftLeft _ (by omega),
    getLsbD_bitByte_shiftLeft _ (by omega), getLsbD_bitByte_shiftLeft _ (by omega),
    getLsbD_bitByte_shiftLeft _ (by omega)]
  cases k.pktValid <;> simp

/-! ## Registers wider than a byte -/

section
variable (s : State)

/-- A 16-bit register reads big-endian (20_memory.md R55). -/
theorem busRead_half {hi lo : Addr} {x : Half} (h : hi.toNat < 0x28 ∧ lo.toNat < 0x28)
    (hhi : s.readRegister hi.toNat = hiByte x) (hlo : s.readRegister lo.toNat = loByte x) :
    (s.busRead hi).toNat * 256 + (s.busRead lo).toNat = x.toNat := by
  rw [busRead_register s h.1, busRead_register s h.2, hhi, hlo, hiByte_loByte]

/-- A 24-bit register reads big-endian (20_memory.md R55, 10_state.md R36). -/
theorem busRead_packetAddr {b2 b1 b0 : Addr} {x : PacketAddr} (h : b2.toNat < 0x28 ∧ b1.toNat < 0x28 ∧ b0.toNat < 0x28)
    (h2 : s.readRegister b2.toNat = packetAddrByte x 2) (h1 : s.readRegister b1.toNat = packetAddrByte x 1)
    (h0 : s.readRegister b0.toNat = packetAddrByte x 0) :
    (s.busRead b2).toNat * 65536 + (s.busRead b1).toNat * 256 + (s.busRead b0).toNat = x.toNat := by
  rw [busRead_register s h.1, busRead_register s h.2.1, busRead_register s h.2.2, h2, h1, h0, packetAddrByte_sum]

end

/-- An address is its group id above its device id (10_state.md R36). -/
theorem toNat_eq_groupId_deviceId (a : PacketAddr) : a.toNat = (groupId a).toNat * 2 ^ 18 + (deviceId a).toNat := by
  have hlt := a.isLt
  simp only [groupId, deviceId, BitVec.toNat_setWidth, BitVec.toNat_ushiftRight, Nat.shiftRight_eq_div_pow]
  omega

/-! ## What the host keeps of its reads -/

/-- The byte of an R16 read first is the high one (30_encoding.md R94). -/
theorem run_r16 {s : State} {off : Addr} (ho : s.order = expand (.r16 off)) :
    ∃ t, Host.Core.run Sys2Proof.core 2 s = .next t ∧
      HostOp.value (.r16 off) t.reads = some (.half (half (s.busRead off) (s.busRead (off + 1)))) := by
  refine ⟨hostRead (off + 1) { hostRead off { s with order := [.read (off + 1)] } with order := [] }, ?_, rfl⟩
  rw [run_succ (step_read ho), run_succ (step_read rfl), run_zero]

/-- The bytes of an R24 come most significant first (30_encoding.md R94). -/
theorem run_r24 {s : State} {off : Addr} (ho : s.order = expand (.r24 off)) :
    ∃ t, Host.Core.run Sys2Proof.core 3 s = .next t ∧
      HostOp.value (.r24 off) t.reads =
        some (.packetAddr (packetAddr (s.busRead off) (s.busRead (off + 1)) (s.busRead (off + 2)))) := by
  refine ⟨hostRead (off + 2) { hostRead (off + 1) { hostRead off
    { s with order := [.read (off + 1), .read (off + 2)] } with order := [.read (off + 2)] } with order := [] }, ?_, rfl⟩
  rw [run_succ (step_read ho), run_succ (step_read rfl), run_succ (step_read rfl), run_zero]

/-! ## RAW_MSG -/

@[simp] theorem byteBits_length (b : Byte) : (byteBits b).length = 8 := by simp [byteBits]

theorem flatMap_byteBits_length (l : Bytes) : (l.flatMap byteBits).length = 8 * l.length := by
  simp [List.length_flatMap, Nat.mul_comm]

/-- Bit `8j + k` of a byte sequence as bits is bit `7 - k` of byte `j` (10_state.md R47). -/
theorem flatMap_byteBits_getElem? (l : Bytes) {j k : Nat} (hj : j < l.length) (hk : k < 8) :
    (l.flatMap byteBits)[8 * j + k]? = some (l[j].getLsbD (7 - k)) := by
  induction l generalizing j with
  | nil => simp at hj
  | cons b l ih =>
    rw [List.flatMap_cons]
    cases j with
    | zero =>
      rw [List.getElem?_append_left (by simpa using hk)]
      simp [byteBits, streamBit, hk, Nat.mod_eq_of_lt hk]
    | succ j =>
      rw [List.getElem?_append_right (by simp; omega), byteBits_length, show 8 * (j + 1) + k - 8 = 8 * j + k by omega,
        ih (by simpa using hj)]
      rfl

end Sys2Proof.Machine
end

section
/-! The statements about what the addresses read and what writes to them do (20_memory.md R53 to R65, 10_state.md R24, R34 to R36,
R42 to R47, 70_reset_and_hazards.md R175). -/

namespace Sys2Proof.Machine

/-- Settles O45: a command that is left pending has been accepted (`issue_cases`), which changes DONE and PENDING only, and these
show in STATUS alone (`busRead_withStatus`). -/
theorem busyReadsShowTheCommittedState : Obligations.BusyReadsShowTheCommittedState := by
  intro c s t hidle hexec hpending
  obtain rfl : issue c s = t := issue_eq_of_exec hidle hexec
  rcases issue_cases c s with ⟨_, e⟩ | ⟨_, e⟩ <;> rw [e] at hpending ⊢
  · exact absurd hidle hpending
  · refine ⟨fun a ha => busRead_withStatus s s.code false (some c) ha, ?_⟩
    rw [busRead_status, State.status, accept_code, accept_done, State.busy_some (accept_pending c s)]
    simp [bitByte]

/-- Settles O54: a reserved register offset is neither read nor written as a register, and the other reserved addresses are
outside the registers, PAYLOAD and the buffers (`busRead_outside`, `busStore_outside`). -/
theorem reservedAddressesReadZero : Obligations.ReservedAddressesReadZero := by
  intro s a hreserved
  rcases hreserved with hregister | hrange
  · simp only [List.mem_cons, List.not_mem_nil, or_false] at hregister
    rcases hregister with rfl | rfl | rfl | rfl | rfl <;>
      exact ⟨busRead_register s (by decide), fun v es ho =>
        step_write_ignored ho (by decide) (busStore_register _ v (by decide))⟩
  · have hbuffer : ¬isBufferAddress s.params a.toNat = true := by rw [isBufferAddress_iff]; omega
    have ha : a ≠ 0 := by rintro rfl; simp at hrange
    exact ⟨busRead_outside s (by omega) (by omega) hbuffer, fun v es ho =>
      step_write_ignored ho ha (busStore_outside _ v (by omega) hbuffer)⟩

/-- Settles O55: no register from 0x000C on can be written (`writeRegister_readOnly`), and PAYLOAD is outside the registers and
the buffers (`busStore_outside`). -/
theorem readOnlyWritesAreIgnored : Obligations.ReadOnlyWritesAreIgnored := by
  intro s a v es ho hrange
  have ha : a ≠ 0 := by rintro rfl; simp at hrange
  refine step_write_ignored ho ha ?_
  rcases hrange with ⟨hlow, hhigh⟩ | ⟨hlow, hhigh⟩
  · rw [busStore_register _ v (by omega), writeRegister_readOnly _ v hlow]
  · exact busStore_outside _ v (by omega) (by rw [isBufferAddress_iff]; omega)

/-- Settles O56: the write is a store of one byte (`busStore_buffer`), which its own address reads (`busRead_buffer`) and no other
(`busRead_store_other`). -/
theorem bufferWriteThenReadGivesTheByte : Obligations.BufferWriteThenReadGivesTheByte := by
  intro s a v es ho hp hrange
  have hbuffer : isBufferAddress s.params a.toNat = true := by rw [isBufferAddress_iff]; omega
  have ha : a ≠ 0 := by rintro rfl; simp at hrange
  refine ⟨({ s with order := es } : State).store a.toNat [v], ?_, rfl, ?_, fun b hb => busRead_store_other _ v hb⟩
  · rw [step_write ho hp ha, busStore_buffer (s := { s with order := es }) v hbuffer]
  · rw [busRead_buffer (s := ({ s with order := es } : State).store a.toNat [v]) hbuffer]
    exact State.bufByte_store_inside _ a.toNat [v] (j := 0) (by simp)

/-- Settles O57: the addresses of the bits and bytes are buffer addresses, and those read the buffer byte (`busRead_buffer`). -/
theorem inputBitsArePackedMsbFirst : Obligations.InputBitsArePackedMsbFirst := by
  have hread (s : State) {n : Nat} (hn : n < 0x2000) (h : isBufferAddress s.params n = true) :
      s.busRead (BitVec.ofNat 16 n) = s.bufByte n := by
    have htoNat : (BitVec.ofNat 16 n).toNat = n := (BitVec.toNat_ofNat ..).trans (Nat.mod_eq_of_lt (by omega))
    rw [busRead_buffer (by rwa [htoNat]), htoNat]
  refine ⟨fun s i hcapacity hi => ?bits, fun s j hj => ⟨?_, ?_, ?_⟩⟩
  case bits =>
    have hmax := maxBits_le hcapacity
    have hwhole := maxBits_mod_eight hcapacity
    rw [hread s (by omega) (by rw [isBufferAddress_iff]; omega)]
    rfl
  all_goals exact hread s (by omega) (by rw [isBufferAddress_iff]; omega)

/-- Settles O59: RAW_MSG is the bits of the frame's bytes (`flatMap_byteBits_getElem?`), and byte `j` of the frame is FBUF[j]. -/
theorem rawMessageIsTheFrameMsbFirst : Obligations.RawMessageIsTheFrameMsbFirst := by
  intro s
  refine ⟨by rw [State.rawMsg, flatMap_byteBits_length, State.inputFrame_length], fun j k hj hk => ?_⟩
  rw [State.rawMsg, flatMap_byteBits_getElem? _ (by rwa [State.inputFrame_length]) hk]
  simp [State.inputFrame]

/-- Settles O8: the fields are 0 as `State.reset` lists them, and below 0x1000 an address reads a register, PAYLOAD or nothing. -/
theorem resetStateIsAllZero : Obligations.ResetStateIsAllZero := by
  refine ⟨rfl, rfl, rfl, rfl, rfl, rfl, rfl, rfl, rfl, rfl, rfl, fun a ha => ?_⟩
  by_cases hregister : a.toNat < 0x28
  · rw [busRead_register _ hregister, readRegister_reset]
  by_cases hpayload : 0x100 ≤ a.toNat ∧ a.toNat ≤ 0x1FE
  · rw [busRead_payload _ hpayload]
    exact PacketGroup.payloadByte_zero _
  · exact busRead_outside _ (by omega) (by omega) (by rw [isBufferAddress_iff]; omega)

/-- Settles O49: the write goes to STATUS, where bit 4 decides whether DONE is cleared (10_state.md R24). -/
theorem statusWriteClearsDone : Obligations.StatusWriteClearsDone := by
  intro s v es ho hp
  have hstep : step s = .next (if v.getLsbD 4 then { s with order := es, done := false } else { s with order := es }) := by
    rw [step_write ho hp (by decide), busStore_register _ v (by decide)]
    rfl
  refine ⟨fun hbit => ⟨_, hstep.trans (by rw [if_pos hbit]), rfl, rfl⟩, fun hbit => ?_⟩
  rw [hstep, hbit]
  rfl

/-- Settles O52: PRESENT is placed bit by bit (`PacketGroup.getLsbD_present`). -/
theorem presentShowsTheGates : Obligations.PresentShowsTheGates := by
  intro s i
  have hread : s.busRead 0x0013 = s.pkt.present := busRead_register s (by decide)
  rw [hread, PacketGroup.getLsbD_present]

/-- Settles O53: each register is read off its offset (`busRead_half`, `busRead_packetAddr`, `busRead_register`), PAYLOAD by its
byte (`busRead_payload`), and what an R16 or R24 keeps is the bytes it read in their order (`run_r16`, `run_r24`). -/
theorem resultsReadBigEndian : Obligations.ResultsReadBigEndian := by
  intro s
  refine ⟨busRead_half s (by decide) rfl rfl, busRead_half s (by decide) rfl rfl, busRead_half s (by decide) rfl rfl,
    busRead_half s (by decide) rfl rfl, busRead_half s (by decide) rfl rfl, busRead_half s (by decide) rfl rfl,
    busRead_half s (by decide) rfl rfl, busRead_packetAddr s (by decide) rfl rfl rfl,
    busRead_packetAddr s (by decide) rfl rfl rfl, busRead_packetAddr s (by decide) rfl rfl rfl,
    toNat_eq_groupId_deviceId, busRead_register s (by decide), busRead_register s (by decide),
    busRead_register s (by decide), busRead_register s (by decide), busRead_register s (by decide),
    busRead_register s (by decide), busRead_register s (by decide), busRead_register s (by decide),
    fun i hi => ?payload, fun off ho => ?r16, fun off ho => ?r24⟩
  case payload =>
    have htoNat : (BitVec.ofNat 16 (0x0100 + i)).toNat = 0x0100 + i :=
      (BitVec.toNat_ofNat ..).trans (Nat.mod_eq_of_lt (by omega))
    rw [busRead_payload s (by omega), htoNat, Nat.add_sub_cancel_left, PacketGroup.payloadByte]
    simp [List.getD_eq_getElem?_getD, hi]
  case r16 =>
    obtain ⟨t, hrun, hvalue⟩ := run_r16 ho
    exact ⟨t, _, hrun, hvalue, toNat_half _ _⟩
  case r24 =>
    obtain ⟨t, hrun, hvalue⟩ := run_r24 ho
    exact ⟨t, _, hrun, hvalue, toNat_packetAddr _ _ _⟩

end Sys2Proof.Machine
end

section
/-! SUPPORT. The host's LOAD, SETLEN and LOADBITS as runs of the machine (30_encoding.md R94). -/

namespace Sys2Proof.Machine

/-- A LOAD of bytes that lie in the buffers stores them and takes its events, whatever runs after it. -/
theorem run_expandLoad {bytes : Bytes} {base : Addr} {es : List Event} {s : State} (hp : s.pending = none)
    (ho : s.order = expandLoad base bytes ++ es)
    (hbuffer : ∀ i, i < bytes.length → isBufferAddress s.params (base.toNat + i) = true) (k : Nat) :
    Host.Core.run Sys2Proof.core (bytes.length + k) s =
      Host.Core.run Sys2Proof.core k (({ s with order := es } : State).store base.toNat bytes) := by
  induction bytes generalizing base s with
  | nil =>
    rw [expandLoad, List.nil_append] at ho
    subst ho
    rw [List.length_nil, Nat.zero_add]
    rfl
  | cons v rest ih =>
    rw [expandLoad, List.cons_append] at ho
    have hhere : isBufferAddress s.params base.toNat = true := hbuffer 0 (by simp)
    have hrange := (isBufferAddress_iff _ _).1 hhere
    have hne : base ≠ 0 := by rintro rfl; simp at hrange
    have hnext : (base + 1).toNat = base.toNat + 1 := by
      rw [BitVec.toNat_add, Nat.mod_eq_of_lt (by change base.toNat + 1 < 65536; omega)]
      rfl
    have hstep : step s = .next (({ s with order := expandLoad (base + 1) rest ++ es } : State).store base.toNat [v]) := by
      rw [step_write ho hp hne, busStore_buffer (s := { s with order := expandLoad (base + 1) rest ++ es }) v hhere]
    have hrest := ih (base := base + 1)
      (s := ({ s with order := expandLoad (base + 1) rest ++ es } : State).store base.toNat [v]) hp rfl fun i hi => by
        rw [hnext, Nat.add_assoc, Nat.add_comm 1]
        exact hbuffer (i + 1) (by simpa using hi)
    rw [hnext] at hrest
    rw [List.length_cons, Nat.add_right_comm]
    exact (run_succ hstep _).trans hrest

/-- A SETLEN writes the whole register and takes its two events. -/
theorem run_expandSetLen {r : LengthRegister} {v : Half} {s : State} (hp : s.pending = none)
    (ho : s.order = expandSetLen r v) :
    Host.Core.run Sys2Proof.core 2 s = .next (({ s with order := [] } : State).withLength r v) := by
  have hhi : r.offset ≠ 0 := by cases r <;> decide
  have hlo : r.offset + 1 ≠ 0 := by cases r <;> decide
  have hfirst := step_write ho hp hhi
  rw [busStore_lengthHi] at hfirst
  have hidle : (({ s with order := [.write (r.offset + 1) (loByte v)] } : State).withLength r
      (withHi (s.lengthOf r) (hiByte v))).pending = none := by cases r <;> exact hp
  have horder : (({ s with order := [.write (r.offset + 1) (loByte v)] } : State).withLength r
      (withHi (s.lengthOf r) (hiByte v))).order = [.write (r.offset + 1) (loByte v)] := by cases r <;> rfl
  have hsecond := step_write horder hidle hlo
  rw [busStore_lengthLo] at hsecond
  refine (run_succ hfirst 1).trans ((run_succ hsecond 0).trans ?_)
  rw [run_zero]
  cases r <;> simp only [State.withLength, State.lengthOf, withLo_withHi]

@[simp] theorem packBits_length (bits : Bits) : (packBits bits).length = (bits.length + 7) / 8 := by simp [packBits]

@[simp] theorem expandLoad_length (base : Addr) (bytes : Bytes) : (expandLoad base bytes).length = bytes.length := by
  induction bytes generalizing base with
  | nil => rfl
  | cons v rest ih => rw [expandLoad, List.length_cons, ih, List.length_cons]

/-- The bits whose packed bytes are stored at IBUF, IN_LEN their number, are the input bits (20_memory.md R62). -/
theorem inputBits_store_packBits {s : State} {bits : Bits} (hlen : s.inLen.toNat = bits.length)
    (hmem : ∀ j (hj : j < (packBits bits).length), s.bufByte (ibufBase + j) = (packBits bits)[j]) : s.inputBits = bits := by
  refine List.ext_getElem (by rw [State.inputBits_length, hlen]) fun i h1 h2 => ?_
  obtain ⟨hbyte, hbit⟩ := streamBit_packBits bits h2
  rw [List.getD_eq_getElem _ _ h2] at hbit
  simp only [State.inputBits, List.getElem_map, List.getElem_range, State.ibufBit]
  rw [hmem _ hbyte, hbit]

end Sys2Proof.Machine
end

section
/-! The statement about LOADBITS (30_encoding.md R94, 20_memory.md R62). -/

namespace Sys2Proof.Machine

/-- Settles O58: the packed bytes lie in IBUF, so the LOAD stores them (`run_expandLoad`), the SETLEN writes IN_LEN
(`run_expandSetLen`), and the input read back is the bitstream (`inputBits_store_packBits`). -/
theorem loadBitsLoadsTheBits : Obligations.LoadBitsLoadsTheBits := by
  intro s bits hcapacity hlen hp ho
  have hmax := maxBits_le hcapacity
  have hwhole := maxBits_mod_eight hcapacity
  have hbuffer : ∀ i, i < (packBits bits).length → isBufferAddress s.params ((0x1000 : Addr).toNat + i) = true := by
    intro i hi
    rw [packBits_length] at hi
    rw [isBufferAddress_iff, show (0x1000 : Addr).toNat = 0x1000 from rfl]
    omega
  have hlength : s.order.length = (packBits bits).length + 2 := by
    rw [ho, expand, List.length_append, expandLoad_length]
    rfl
  have hload := run_expandLoad hp ho hbuffer 2
  rw [run_expandSetLen (s := ({ s with order := expandSetLen .inLen (BitVec.ofNat 16 bits.length) } : State).store _ _) hp rfl]
    at hload
  refine ⟨_, hlength ▸ hload, inputBits_store_packBits ?_ fun j hj => ?_, rfl, rfl⟩
  · exact (BitVec.toNat_ofNat ..).trans (Nat.mod_eq_of_lt (by omega))
  · exact State.bufByte_store_inside _ 0x1000 (packBits bits) hj

end Sys2Proof.Machine
end

section
/-! SUPPORT. The decoder read backwards: the byte that a decoded command was read from (30_encoding.md R70, R71), and the acceptance
of a command (40_command_cycle.md R102). -/

namespace Sys2Proof

/-- What decodes is the command's opcode and the rest. -/
theorem eq_opcode_cons_of_decode {bytes rest : Bytes} {i : Instr} (h : decode bytes = .ok (i, rest)) :
    bytes = opcode i :: rest := by
  cases bytes with
  | nil => cases h
  | cons v tail =>
    rcases hv : commandOf v with _ | j
    · rw [decode, hv] at h
      cases h
    · rw [decode, hv] at h
      cases h
      rw [(commandOf_eq_some_iff i v).1 hv]

/-- The first byte of an opcode-table word that decodes is the command's opcode. -/
theorem headD_tableWordBytes {nbits w : Nat} {i : Instr} (h : decodeTableWord nbits w = some i) :
    (tableWordBytes nbits w).headD 0 = opcode i := by
  rcases hdecode : decode (tableWordBytes nbits w) with e | ⟨j, rest⟩
  · rw [decodeTableWord, hdecode] at h
    cases h
  · rw [decodeTableWord, hdecode] at h
    cases h
    rw [eq_opcode_cons_of_decode hdecode, List.headD_cons]

end Sys2Proof

namespace Sys2Proof.Machine

/-- exec of a pending command within its capacity, where none is pending (40_command_cycle.md R102). -/
theorem exec_accept (c : Cmd) {s : State} (hp : s.pending = none) (h : inputLength c s ≤ capacity c s.params) :
    exec c.instr s = .next (accept c s) := by
  rw [exec_issue hp, issue, if_neg (by omega)]

end Sys2Proof.Machine
end

section
/-! The statements about the encoding of commands (30_encoding.md R70, R71). -/

namespace Sys2Proof

/-- Settles O1: a command is its opcode, which decodes to it whatever follows (`decode_opcode_cons`). -/
theorem decodeOfEncodeGivesTheCommand : Obligations.DecodeOfEncodeGivesTheCommand := fun i rest _ =>
  ⟨rfl, decode_opcode_cons i rest⟩

/-- Settles O2: the byte that a command is read from is its opcode (`eq_opcode_cons_of_decode`). -/
theorem decodedBytesAreTheEncoding : Obligations.DecodedBytesAreTheEncoding := fun _ _ _ h => eq_opcode_cons_of_decode h

end Sys2Proof
end

section
/-! The statements about the step that runs a command, about reset, and about the acceptance of a command (40_command_cycle.md
R98, R102, R104, 70_reset_and_hazards.md R174). -/

namespace Sys2Proof.Machine

/-- Settles O5: the byte is the command's opcode (`eq_opcode_cons_of_decode`), whose write runs it (`step_write_opcode`). -/
theorem stepRunsTheDecodedCommand : Obligations.StepRunsTheDecodedCommand := by
  intro s v es i rest ho hp hdecode _
  obtain ⟨rfl, _⟩ := List.cons.inj (eq_opcode_cons_of_decode hdecode)
  exact step_write_opcode i ho hp

/-- Settles O6: with the ENGINE next, and with the order used up, the step is that of the ENGINE, which runs the pending
command. -/
theorem engineStepRunsThePendingCommand : Obligations.EngineStepRunsThePendingCommand := by
  intro s c hp
  have hengine (es : List Event) : engineStep { s with order := es } = exec c.instr { s with order := es } := by
    rw [engineStep, hp]
  refine ⟨fun ho => ?_, fun es ho => ?_⟩
  · rw [step_eq, ho]
    exact hengine s.order
  · rw [step_eq, ho]
    exact hengine es

/-- Settles O7: the placed byte is the command's opcode (`headD_tableWordBytes`), whose write runs it (`step_write_opcode`). -/
theorem placedWordRunsNext : Obligations.PlacedWordRunsNext := by
  intro s nbits w i h
  rw [State.withFetchWord, headD_tableWordBytes h]
  exact step_write_opcode (s := placeCommand (opcode i) s) i rfl rfl

/-- Settles O9: the reset event is `resetCore`, on the state whose order has moved past it. -/
theorem resetAbandonsEverything : Obligations.ResetAbandonsEverything := by
  intro s es ho
  rw [step_eq, ho]
  rfl

/-- Settles O16: one argument for the five commands (`exec_accept`), each with its own length and capacity. -/
theorem issueAcceptsWithinCapacity : Obligations.IssueAcceptsWithinCapacity := fun _ hp =>
  ⟨exec_accept .decode hp, exec_accept .sync hp, exec_accept .extract hp, exec_accept .mdecode hp, exec_accept .parse hp⟩

/-- Settles O21: the group becomes `PacketGroup.zero`, whose fields are 0 and whose PAYLOAD reads 0 at every index
(`PacketGroup.payloadByte_zero`). -/
theorem clearedPacketGroupIsZero : Obligations.ClearedPacketGroupIsZero := fun _ =>
  ⟨PacketGroup.zero, rfl, rfl, rfl, rfl, rfl, rfl, rfl, rfl, rfl, rfl, rfl, rfl, rfl, rfl, rfl,
    PacketGroup.payloadByte_zero, by decide, by decide⟩

end Sys2Proof.Machine
end
